-- ==== Sys2Proof/Word.lean ====
section
/-! DEFINITION. The word types of the block (00_scope.md R8 to R11): register words, command words,
selectors, binary64 patterns, and the raw register window. -/

namespace Sys2Proof

/-- One 16-bit register word of the device (R8 `REG_BITS`). -/
abbrev RegWord := BitVec 16

/-- One command word (R81, R91): always 72 bits. -/
abbrev CommandWord := BitVec 72

/-- The 9-bit selector of a micro-operation (R96): bit 8 says `registersToRead ≠ 0`, bits 7:0 are the
`responseWidth` byte. -/
abbrev Selector := BitVec 9

/-- An IEEE 754 binary64 number held as its 64-bit pattern (R11, D34). -/
abbrev F64 := BitVec 64

/-- The raw register window, `WIN_LEN = 16` words (R29, C1). -/
abbrev Window := Vector RegWord 16

end Sys2Proof
end

