-- ==== Sys2Proof/Machine/Parameters.lean ====
section
/-! DEFINITION. The parameters the source or the spec fixes (R8, R132, R134): the check and compression bounds, the
scale factor and the clamps. -/

namespace Sys2Proof.Machine

/-- `RES_MAX`, the largest legal resolution index (R8, R163). -/
abbrev resMax : RegWord := 8#16

/-- `HI16`, the binary64 nearest 327.67 (R132, D14). -/
abbrev hi16 : F64 := 0x40747AB851EB851F#64
/-- `LO16`, the binary64 nearest -327.68 (R132, D14). -/
abbrev lo16 : F64 := 0xC0747AE147AE147B#64
/-- `HI32`, the binary64 nearest 21474836.47 (R132, D14). -/
abbrev hi32 : F64 := 0x41747AE147851EB8#64
/-- `LO32`, the binary64 nearest -21474836.48 (R132, D14). -/
abbrev lo32 : F64 := 0xC1747AE147AE147B#64

/-- `SCALE` as a binary64, 100.0 (R8, R134). -/
abbrev scale : F64 := 0x4059000000000000#64

/-- `INT16_MAX` (R10). -/
abbrev int16Max : BitVec 16 := 0x7FFF#16
/-- `INT16_MIN` (R10). -/
abbrev int16Min : BitVec 16 := 0x8000#16
/-- `INT32_MAX` (R10). -/
abbrev int32Max : BitVec 32 := 0x7FFFFFFF#32
/-- `INT32_MIN` (R10). -/
abbrev int32Min : BitVec 32 := 0x80000000#32

end Sys2Proof.Machine
end

