-- ==== Sys2Proof/Machine/Float.lean ====
section
/-! DEFINITION. Binary64 as the compress commands use it (R11, R131 to R136): the number a pattern stands for, ordered
comparison, the product rounded to nearest even, rounding to an integer with ties away from zero, and the cast. -/

namespace Sys2Proof.Machine

/-- The number of a binary64 pattern. Every finite binary64 is a whole number of units of 2^-1074 (the smallest
subnormal), so a finite number is held exactly as a sign and that many units; both zeros have `mag = 0`. -/
inductive FVal where
  | nan
  | inf (neg : Bool)
  | fin (neg : Bool) (mag : Nat)
deriving DecidableEq, Repr

/-- The number 1 in units of 2^-1074. -/
def unitsPerOne : Nat := 2 ^ 1074

/-- `f64_of_bits` (R11): sign bit 63, exponent 62:52, fraction 51:0. An exponent field of 0 is a subnormal, of
2047 an infinity or a NaN. -/
def FVal.ofBits (b : F64) : FVal :=
  let neg := b.getLsbD 63
  let exponent := (b.extractLsb' 52 11).toNat
  let fraction := (b.extractLsb' 0 52).toNat
  if exponent = 2047 then
    if fraction = 0 then .inf neg else .nan
  else if exponent = 0 then .fin neg fraction
  else .fin neg ((2 ^ 52 + fraction) * 2 ^ (exponent - 1))

/-- A sign and a magnitude as an integer. -/
def signedInt (neg : Bool) (mag : Nat) : Int := if neg then -(mag : Int) else mag

/-- `x < y` on `f64` (R133): ordered, so false if either side is a NaN; the zeros are equal. -/
def FVal.lt : FVal → FVal → Bool
  | .nan, _ => false
  | _, .nan => false
  | .inf true, .inf true => false
  | .inf true, _ => true
  | .inf false, _ => false
  | .fin _ _, .inf neg => !neg
  | .fin s m, .fin t n => decide (signedInt s m < signedInt t n)

/-- `x = 0` (R133): true of both zeros and of nothing else. -/
def FVal.isZero : FVal → Bool
  | .fin _ mag => decide (mag = 0)
  | _ => false

/-- `n / q` to the nearest integer, a tie to the even one. -/
def roundHalfEven (n q : Nat) : Nat :=
  if q < 2 * (n % q) ∨ (2 * (n % q) = q ∧ (n / q) % 2 = 1) then n / q + 1 else n / q

/-- How many low bits of a product the binary64 result drops: all but 53, and at least the 1074 below the smallest
subnormal. -/
def droppedBits (n : Nat) : Nat := max 1074 (n.log2 + 1 - 53)

/-- An exact magnitude of `n` units of 2^-2148 (a product of two magnitudes) rounded to nearest even into
binary64, in units of 2^-1074 (R134). -/
def roundProduct (n : Nat) : Nat :=
  roundHalfEven n (2 ^ droppedBits n) * 2 ^ (droppedBits n - 1074)

/-- The magnitude 2^1024 in units of 2^-1074: a rounded result of this size or more is an infinity. -/
def infinityUnits : Nat := 2 ^ 2098

/-- A finite sign and magnitude, or the infinity of that sign on overflow. -/
def FVal.finOrInf (neg : Bool) (mag : Nat) : FVal :=
  if mag < infinityUnits then .fin neg mag else .inf neg

/-- `fmul(a, b)` (R134): the binary64 product, rounded to nearest, ties to even. -/
def fmul : FVal → FVal → FVal
  | .nan, _ => .nan
  | _, .nan => .nan
  | .inf s, .inf t => .inf (s ^^ t)
  | .inf s, .fin t n => if n = 0 then .nan else .inf (s ^^ t)
  | .fin s m, .inf t => if m = 0 then .nan else .inf (s ^^ t)
  | .fin s m, .fin t n => FVal.finOrInf (s ^^ t) (roundProduct (m * n))

/-- The integer nearest `mag` units, a tie going up: away from zero, as `mag` is a magnitude. -/
def roundHalfAway (mag : Nat) : Nat := (2 * mag + unitsPerOne) / (2 * unitsPerOne)

/-- `fround(x)` (R135): the nearest integer-valued number, ties away from zero; zeros and infinities keep their
sign. -/
def fround : FVal → FVal
  | .fin s m => .fin s (roundHalfAway m * unitsPerOne)
  | x => x

/-- `f2i_N(x)` (R136): the `sN` of the same value as an integer-valued `x` in range, `-0.0` giving 0; `none` for
anything else, which the spec leaves undefined (U2). -/
def f2i (n : Nat) : FVal → Option (BitVec n)
  | .fin s m =>
    let k := signedInt s (m / unitsPerOne)
    if m % unitsPerOne = 0 ∧ -(2 : Int) ^ (n - 1) ≤ k ∧ k < 2 ^ (n - 1) then some (BitVec.ofInt n k)
    else none
  | _ => none

end Sys2Proof.Machine
end

