-- ==== Sys2Proof/Machine/Flags.lean ====
section
/-! DEFINITION. Status. The block has no condition codes (R34): its only statuses are the error codes of R200 and the
sign check of R137. -/

namespace Sys2Proof.Machine

/-- R200 code 0, `SUCCESS`. -/
abbrev errSuccess : BitVec 8 := 0#8
/-- R200 code 3, `CHANNEL_BUSY` (also transport exception 3, R202). -/
abbrev errChannelBusy : BitVec 8 := 3#8
/-- R200 code 5, `TIMEOUT`. -/
abbrev errTimeout : BitVec 8 := 5#8
/-- R200 code 6, `OVERFLOW_16`. -/
abbrev errOverflow16 : BitVec 8 := 6#8
/-- R200 code 7, `UNDERFLOW_16`. -/
abbrev errUnderflow16 : BitVec 8 := 7#8
/-- R200 code 8, `OVERFLOW_32`. -/
abbrev errOverflow32 : BitVec 8 := 8#8
/-- R200 code 9, `UNDERFLOW_32`. -/
abbrev errUnderflow32 : BitVec 8 := 9#8
/-- R200 code 10, invalid resolution index. -/
abbrev errResolutionIndex : BitVec 8 := 10#8

/-- Positive zero, for the comparison `value < 0`. -/
def FVal.zero : FVal := .fin false 0

/-- `disagree(s, v)` (R137): neither is zero and their signs differ. -/
def disagree (s : BitVec 32) (v : FVal) : Bool :=
  decide (s ≠ 0#32) && !v.isZero && (s.msb != v.lt FVal.zero)

end Sys2Proof.Machine
end

