-- ==== Sys2Proof/Syntax.lean ====
section
/-! DEFINITION. The instruction set as syntax: the width tags (R84), one constructor of `Instr` per row of
spec/opcode_table.json, the words an instruction is encoded in, the reasons a word is
reserved (R89), what a command returns (R93), and the shape of an accessor table (R180). -/

namespace Sys2Proof

/-- The four legal width tags (R25, R84); no other value can be stored in `responseWidth`. -/
inductive WidthTag where
  /-- tag 16: 16-bit words, decoded into `int16` -/
  | w16
  /-- tag 32: one unsigned 32-bit value, decoded into `uint32` -/
  | u32
  /-- tag -32: one signed 32-bit value, decoded into `int32` -/
  | s32
  /-- tag -64: one binary64 value, decoded into `float64` -/
  | f64
deriving DecidableEq, Repr, Inhabited

/-- Every command, micro-operation and named accessor of the block (R4, R82, R95).
A transaction command holds the low byte of its function identifier, `addr`; the high byte is the function
code the command implies (R82, R83: 0x04 for `READ`, 0x06 for `WRITE` and `WRITE.CHK`). -/
inductive Instr where
  /-- `READ fid, count, wtag` (R170) -/
  | read (addr : BitVec 8) (count : BitVec 8) (tag : WidthTag)
  /-- `WRITE fid, wdata` (R171) -/
  | write (addr : BitVec 8) (wdata : RegWord)
  /-- `WRITE.CHK fid, wdata` (R172) -/
  | writeChk (addr : BitVec 8) (wdata : RegWord)
  /-- `COMPRESS16 value` (R140) -/
  | compress16 (value : F64)
  /-- `COMPRESS32 value` (R141) -/
  | compress32 (value : F64)
  /-- `ASSEMBLE.16` (R112); the window is the engine's, it has no place in the selector -/
  | assemble16 (window : Window)
  /-- `ASSEMBLE.U32` (R113) -/
  | assembleU32 (window : Window)
  /-- `ASSEMBLE.S32` (R114) -/
  | assembleS32 (window : Window)
  /-- `ASSEMBLE.F64` (R115) -/
  | assembleF64 (window : Window)
  /-- `ASSEMBLE.NONE` (R116) -/
  | assembleNone
  /-- `RD.ALARMS` (R95) -/
  | rdAlarms
  /-- `RD.SERIAL` (R95) -/
  | rdSerial
  /-- `RD.FWDVOL.F64` (R95) -/
  | rdFwdvolF64
  /-- `RD.FWDVOL.U32` (R95) -/
  | rdFwdvolU32
  /-- `RD.NETVOL.F64` (R95) -/
  | rdNetvolF64
  /-- `RD.NETVOL.S32` (R95) -/
  | rdNetvolS32
  /-- `WR.WEEKDAY v` (R95) -/
  | wrWeekday (wdata : RegWord)
  /-- `WR.DAY v` (R95) -/
  | wrDay (wdata : RegWord)
  /-- `WR.MONTH v` (R95) -/
  | wrMonth (wdata : RegWord)
  /-- `WR.YEAR v` (R95) -/
  | wrYear (wdata : RegWord)
  /-- `WR.HOURS v` (R95) -/
  | wrHours (wdata : RegWord)
  /-- `WR.MINUTES v` (R95) -/
  | wrMinutes (wdata : RegWord)
  /-- `WR.VOLRES v` (R95) -/
  | wrVolres (wdata : RegWord)
  /-- `WR.FLOWRES v` (R95) -/
  | wrFlowres (wdata : RegWord)
deriving DecidableEq, Repr

/-- What an instruction is encoded in: a command word (formats T and C), or the selector of a
micro-operation (format M, which is no command word: R81). -/
inductive Code where
  | command (w : CommandWord)
  | selector (sel : Selector)
deriving DecidableEq, Repr

/-- Why a word is reserved: the cases of R89 by letter. -/
inductive Reserved where
  /-- (a) `unit` other than 0x00, 0x01, 0x02 -/
  | unknownUnit (unit : BitVec 8)
  /-- (b) format T with a function code other than 0x04 or 0x06 -/
  | unknownFunctionCode (fc : BitVec 8)
  /-- (c) an illegal width tag (R87); also a selector with such a tag byte (R111) -/
  | illegalTag (tag : BitVec 8)
  /-- (d) `READ` of no register or of more than 16 (R88) -/
  | readLength (count : BitVec 8) (tag : WidthTag)
  /-- (e) `READ` with `wdata ≠ 0` or `chk = 1` -/
  | readExtraFields
  /-- (f) `WRITE` or `WRITE.CHK` with `count ≠ 1` or `wtag ≠ 0x10` -/
  | writeFixedFields
  /-- (g) format T with `zero ≠ 0` -/
  | zeroField
deriving DecidableEq, Repr

/-- `ret_value` of the return port (R36, R93): `COMPRESS16` returns an `s16`, `COMPRESS32` an `s32`, every other
command none. -/
inductive RetValue where
  | absent
  | s16 (v : BitVec 16)
  | s32 (v : BitVec 32)
deriving DecidableEq, Repr, Inhabited

/-! ### `ACCESSOR_MAP` (R9, R54, R180): the shape of the table; its content is given, not fixed by the engine -/

/-- The names of the accessors the document shows (R54, R95). -/
inductive ShownAccessor where
  | rdAlarms
  | rdSerial
  | rdFwdvolF64
  | rdFwdvolU32
  | rdNetvolF64
  | rdNetvolS32
  | wrWeekday
  | wrDay
  | wrMonth
  | wrYear
  | wrHours
  | wrMinutes
  | wrVolres
  | wrFlowres
deriving DecidableEq, Repr

/-- The name of an accessor: one the document shows, or any other of the original (N1, U15). -/
inductive AccessorName where
  | shown (n : ShownAccessor)
  | other (name : String)
deriving DecidableEq, Repr

/-- What a row of the table pairs with a name: the command and its operands, but for the data of a write, which the
accessor's user gives (R95, R180). R180 does not say whether a row may hold operands that R85 and R88 forbid (a read of
no word, or of more than 16): here it may (DESIGN CHOICE: log entry 29). -/
inductive AccessorRow where
  | read (addr : BitVec 8) (count : BitVec 8) (tag : WidthTag)
  | write (addr : BitVec 8)
  | writeChk (addr : BitVec 8)
deriving DecidableEq, Repr

/-- An accessor table (R180): a row for each of the fourteen names the document shows, and the rows of any further
names. The definitions that speak of names take one as an argument. -/
structure AccessorMap where
  shown : ShownAccessor → AccessorRow
  others : List (String × AccessorRow)

end Sys2Proof
end

