-- ==== Sys2Proof/Config.lean ====
section
/-! DEFINITION. What the spec leaves open, as constants with no body: the slave address (R9, D8), the undocumented rows
of the accessor table (R9, R180), the Transport's free answers (R52, R63, U9 to U11), and the content of every state element the spec gives no reset value
(R40, U4). Nothing can be proved about the value of any of them, so a claim holds for every value. -/

namespace Sys2Proof

/-- `SLAVE_ADDRESS` (R9, D8): constant over a run, passed unchanged in every start call (DESIGN CHOICE, safe: log
entry 18). -/
opaque Config.slaveAddress : BitVec 8

/-- The rows of `ACCESSOR_MAP` for names the document does not show (R9, R54, R180, D20, N1, U15): which they are, and
whether there are any, is open (DESIGN CHOICE, safe: log entry 26). -/
opaque Config.otherAccessors : List (String × AccessorRow)

/-! ### Free answers of the Transport

Used, in order, once the answers listed in the state are used up; the argument counts the start answers, or the
rounds, drawn so far (DESIGN CHOICE: log entries 3 and 4). -/

/-- The result of a start call: either Boolean, freely (R63). -/
opaque Config.freeStart : Nat → Bool

/-- The answer of `T.awaiting()` (R59). -/
opaque Config.freeAwaiting : Nat → Bool

/-- Whether `T.poll()` has a Response to give (R60). -/
opaque Config.freeArrived : Nat → Bool

/-- `r.hasException` of that Response (R61). -/
opaque Config.freeHasException : Nat → Bool

/-- `r.exceptionCode` of that Response: any 8-bit value (R61, U5). -/
opaque Config.freeExceptionCode : Nat → BitVec 8

/-- `r.registerAt(index)` of that Response: any 16-bit word (R52, R62, U10). -/
opaque Config.freeRegister : Nat → Nat → RegWord

/-! ### Contents after reset

R40 gives these elements no value and forbids zero; each is one named value nothing is known about
(DESIGN CHOICE, unsafe: log entry 9). -/

/-- `registersToRead` after reset (R40). -/
opaque Config.resetRegistersToRead : BitVec 8

/-- `responseWidth` after reset (R40). -/
opaque Config.resetResponseWidth : WidthTag

/-- `lastFunctionIdentifier` after reset (R40). -/
opaque Config.resetLastFunctionIdentifier : BitVec 16

/-- `lastErrorCode` after reset (R40). -/
opaque Config.resetLastErrorCode : BitVec 8

/-- `int16[0..15]` after reset (R40). -/
opaque Config.resetInt16 : Window

/-- `int32` after reset (R40). -/
opaque Config.resetInt32 : BitVec 32

/-- `uint32` after reset (R40). -/
opaque Config.resetUint32 : BitVec 32

/-- `float64` after reset (R40). -/
opaque Config.resetFloat64 : F64

/-- `ret_code` before the first command ends (R40). -/
opaque Config.resetRetCode : BitVec 8

/-- `ret_value` before the first command ends (R40). -/
opaque Config.resetRetValue : RetValue

end Sys2Proof
end

