-- ==== Sys2Proof/Machine/Fields.lean ====
section
/-! DEFINITION. The fields of a transaction command and the values derived from them (R83, R84, R86). -/

namespace Sys2Proof

/-- The tag as its 8-bit two's complement byte (R84, D7). -/
def WidthTag.byte : WidthTag → BitVec 8
  | .w16 => 0x10#8
  | .u32 => 0x20#8
  | .s32 => 0xE0#8
  | .f64 => 0xC0#8

/-- The tag a byte stands for; every other byte is illegal (R87). -/
def tagOfByte (b : BitVec 8) : Option WidthTag :=
  if b = 0x10#8 then some .w16
  else if b = 0x20#8 then some .u32
  else if b = 0xE0#8 then some .s32
  else if b = 0xC0#8 then some .f64
  else none

/-- `regsPerValue = |wtag| / 16` (R86). -/
def WidthTag.regsPerValue : WidthTag → Nat
  | .w16 => 1
  | .u32 => 2
  | .s32 => 2
  | .f64 => 4

/-- `count × regsPerValue`, the words a `READ` asks for, before it is stored in 8 bits (R86). -/
def readWords (count : BitVec 8) (tag : WidthTag) : Nat :=
  count.toNat * tag.regsPerValue

/-- The bound of R88: an accepted `READ` asks for 1 to 16 words. -/
def readWordsOk (count : BitVec 8) (tag : WidthTag) : Bool :=
  decide (1 ≤ readWords count tag) && decide (readWords count tag ≤ 16)

/-- `FC_READ` (R8). -/
abbrev fcRead : BitVec 8 := 0x04#8

/-- `FC_WRITE` (R8). -/
abbrev fcWrite : BitVec 8 := 0x06#8

/-- A function identifier: function code over register start address (R83). -/
def functionId (fc addr : BitVec 8) : BitVec 16 := fc ++ addr

/-- `address = zext_16(fid[7:0])` (R86, R51). -/
def deviceAddress (fid : BitVec 16) : BitVec 16 := (fid.extractLsb' 0 8).setWidth 16

end Sys2Proof
end

