-- ==== Sys2Proof/Machine/Accessors.lean ====
section
/-! DEFINITION. `ACCESSOR_MAP` (R9, R54, R95, R180) as a table the definitions take as an argument: what a name expands to
and which name an instruction has under a given table, and the model's own table, with the fourteen documented rows as
its known instances and every other row open. Counts are decision D10, the pairing of the writes is decision D11. -/

namespace Sys2Proof

/-! ### Under any table -/

/-- The instruction a row stands for, with the data a write is given (R180). -/
def AccessorRow.instr (v : RegWord) : AccessorRow → Instr
  | .read addr count tag => .read addr count tag
  | .write addr => .write addr v
  | .writeChk addr => .writeChk addr v

/-- The row of a name in a table; none where the table does not have the name, of which nothing can then be said
(R180). -/
def AccessorMap.row (m : AccessorMap) : AccessorName → Option AccessorRow
  | .shown n => some (m.shown n)
  | .other name => m.others.lookup name

/-- A documented accessor as an instruction; a read takes no data. -/
def ShownAccessor.instr (v : RegWord) : ShownAccessor → Instr
  | .rdAlarms => .rdAlarms
  | .rdSerial => .rdSerial
  | .rdFwdvolF64 => .rdFwdvolF64
  | .rdFwdvolU32 => .rdFwdvolU32
  | .rdNetvolF64 => .rdNetvolF64
  | .rdNetvolS32 => .rdNetvolS32
  | .wrWeekday => .wrWeekday v
  | .wrDay => .wrDay v
  | .wrMonth => .wrMonth v
  | .wrYear => .wrYear v
  | .wrHours => .wrHours v
  | .wrMinutes => .wrMinutes v
  | .wrVolres => .wrVolres v
  | .wrFlowres => .wrFlowres v

/-- The documented names, in the order of R95. -/
def ShownAccessor.all : List ShownAccessor :=
  [.rdAlarms, .rdSerial, .rdFwdvolF64, .rdFwdvolU32, .rdNetvolF64, .rdNetvolS32, .wrWeekday, .wrDay,
    .wrMonth, .wrYear, .wrHours, .wrMinutes, .wrVolres, .wrFlowres]

/-- What an instruction expands to under a table (R95, R180): a named accessor to what its row stands for, every
other instruction to itself. -/
def Instr.expandIn (m : AccessorMap) : Instr → Instr
  | .rdAlarms => (m.shown .rdAlarms).instr 0#16
  | .rdSerial => (m.shown .rdSerial).instr 0#16
  | .rdFwdvolF64 => (m.shown .rdFwdvolF64).instr 0#16
  | .rdFwdvolU32 => (m.shown .rdFwdvolU32).instr 0#16
  | .rdNetvolF64 => (m.shown .rdNetvolF64).instr 0#16
  | .rdNetvolS32 => (m.shown .rdNetvolS32).instr 0#16
  | .wrWeekday v => (m.shown .wrWeekday).instr v
  | .wrDay v => (m.shown .wrDay).instr v
  | .wrMonth v => (m.shown .wrMonth).instr v
  | .wrYear v => (m.shown .wrYear).instr v
  | .wrHours v => (m.shown .wrHours).instr v
  | .wrMinutes v => (m.shown .wrMinutes).instr v
  | .wrVolres v => (m.shown .wrVolres).instr v
  | .wrFlowres v => (m.shown .wrFlowres).instr v
  | i => i

/-- The data word of a write; every other instruction has none (here: 0). -/
def Instr.writeData : Instr → RegWord
  | .write _ v => v
  | .writeChk _ v => v
  | _ => 0#16

/-- An instruction under the first documented name that expands to the same command in a table, where there is one
(R95, DESIGN CHOICE, safe: log entry 15): a word that is both a base command and a named accessor is read as the
accessor. -/
def Instr.namedIn (m : AccessorMap) (i : Instr) : Instr :=
  let base := i.expandIn m
  let names := ShownAccessor.all.map (ShownAccessor.instr base.writeData)
  (names.find? fun j => decide (j.expandIn m = base)).getD base

/-! ### The model's table -/

/-- The documented rows (R54, R95): reads of the input registers 0x04.., writes of the holding registers 0x06.. . -/
def documentedRow : ShownAccessor → AccessorRow
  | .rdAlarms => .read 0x00#8 1#8 .w16
  | .rdSerial => .read 0x01#8 16#8 .w16
  | .rdFwdvolF64 => .read 0x18#8 1#8 .f64
  | .rdFwdvolU32 => .read 0x36#8 1#8 .u32
  | .rdNetvolF64 => .read 0x42#8 1#8 .f64
  | .rdNetvolS32 => .read 0x52#8 1#8 .s32
  | .wrWeekday => .write 0x01#8
  | .wrDay => .write 0x02#8
  | .wrMonth => .write 0x03#8
  | .wrYear => .write 0x04#8
  | .wrHours => .write 0x05#8
  | .wrMinutes => .write 0x06#8
  | .wrVolres => .writeChk 0x07#8
  | .wrFlowres => .writeChk 0x08#8

/-- `ACCESSOR_MAP` of the model (R180, D20): the documented rows, and the open rest (log entries 26 and 27). -/
def accessorMap : AccessorMap where
  shown := documentedRow
  others := Config.otherAccessors

/-- What an instruction expands to under the model's table. -/
def Instr.expand (i : Instr) : Instr := i.expandIn accessorMap

/-- An instruction under its name in the model's table. -/
def Instr.named (i : Instr) : Instr := i.namedIn accessorMap

end Sys2Proof
end

