-- ==== Sys2Proof/WellFormed.lean ====
section
/-! DEFINITION. Well-formed instructions: those some word of the spec encodes (R85, R88), each under the one name the
decoder gives it (DESIGN CHOICE, safe: log entry 15). -/

namespace Sys2Proof

/-- The operand constraints of R85 and R88 that the fields' types do not already keep: a `READ`, under its own name or
an accessor's, asks for 1 to 16 words. -/
def Instr.operandsOk (i : Instr) : Bool :=
  match i.expand with
  | .read _ count tag => readWordsOk count tag
  | _ => true

/-- The instruction carries the name the accessor table has for it. -/
def Instr.canonical (i : Instr) : Bool := decide (i.named = i)

/-- Well-formed: legal operands, canonical name. -/
def Instr.wellFormed (i : Instr) : Bool := i.operandsOk && i.canonical

end Sys2Proof
end

