-- ==== Sys2Proof/Decode.lean ====
section
/-! DEFINITION. The decoder, total on every command word and every selector, rejecting by name (R81, R85 to R89, R96),
and the encoder written from the same tables (R81, R95, R96). -/

namespace Sys2Proof

/-! ### The fields of a command word (R81) -/

/-- `unit = cmd[71:64]`. -/
def fieldUnit (w : CommandWord) : BitVec 8 := w.extractLsb' 64 8
/-- `fc = cmd[63:56]`, the high byte of `fid`. -/
def fieldFc (w : CommandWord) : BitVec 8 := w.extractLsb' 56 8
/-- `addr = cmd[55:48]`, the low byte of `fid`. -/
def fieldAddr (w : CommandWord) : BitVec 8 := w.extractLsb' 48 8
/-- `count = cmd[47:40]`. -/
def fieldCount (w : CommandWord) : BitVec 8 := w.extractLsb' 40 8
/-- `wtag = cmd[39:32]`. -/
def fieldTag (w : CommandWord) : BitVec 8 := w.extractLsb' 32 8
/-- `wdata = cmd[31:16]`. -/
def fieldWdata (w : CommandWord) : RegWord := w.extractLsb' 16 16
/-- `chk = cmd[15]`. -/
def fieldChk (w : CommandWord) : BitVec 1 := w.extractLsb' 15 1
/-- `zero = cmd[14:0]`. -/
def fieldZero (w : CommandWord) : BitVec 15 := w.extractLsb' 0 15
/-- `value = cmd[63:0]`. -/
def fieldValue (w : CommandWord) : F64 := w.extractLsb' 0 64

/-! ### Decoding -/

/-- A format T word whose function code is 0x04 (R85 `READ`, R88, R89 c, d, e, g). -/
def decodeRead (w : CommandWord) : Except Reserved Instr :=
  match tagOfByte (fieldTag w) with
  | none => .error (.illegalTag (fieldTag w))
  | some tag =>
    if readWordsOk (fieldCount w) tag then
      if fieldWdata w = 0#16 ∧ fieldChk w = 0#1 then
        if fieldZero w = 0#15 then .ok (.read (fieldAddr w) (fieldCount w) tag)
        else .error .zeroField
      else .error .readExtraFields
    else .error (.readLength (fieldCount w) tag)

/-- A format T word whose function code is 0x06: `chk` selects `WRITE` or `WRITE.CHK` (R96, R85, R89 c, f, g). -/
def decodeWrite (w : CommandWord) : Except Reserved Instr :=
  match tagOfByte (fieldTag w) with
  | none => .error (.illegalTag (fieldTag w))
  | some tag =>
    if fieldCount w = 1#8 ∧ tag = .w16 then
      if fieldZero w = 0#15 then
        if fieldChk w = 0#1 then .ok (.write (fieldAddr w) (fieldWdata w))
        else .ok (.writeChk (fieldAddr w) (fieldWdata w))
      else .error .zeroField
    else .error .writeFixedFields

/-- The decoder of R96: `unit`, then the function code, then the constraints of R85. -/
def decodeBase (w : CommandWord) : Except Reserved Instr :=
  if fieldUnit w = 0x01#8 then .ok (.compress16 (fieldValue w))
  else if fieldUnit w = 0x02#8 then .ok (.compress32 (fieldValue w))
  else if fieldUnit w = 0x00#8 then
    if fieldFc w = fcRead then decodeRead w
    else if fieldFc w = fcWrite then decodeWrite w
    else .error (.unknownFunctionCode (fieldFc w))
  else .error (.unknownUnit (fieldUnit w))

/-- The instruction of a command word, under its accessor's name in a table where it has one (R95, R96, R180). -/
def decodeIn (m : AccessorMap) (w : CommandWord) : Except Reserved Instr :=
  match decodeBase w with
  | .ok i => .ok (i.namedIn m)
  | .error e => .error e

/-- The instruction of a command word, named by the model's table. -/
def decode (w : CommandWord) : Except Reserved Instr := decodeIn accessorMap w

/-- The micro-operation a selector chooses (R96, R111), over the window the engine has filled. -/
def decodeSelector (sel : Selector) (window : Window) : Except Reserved Instr :=
  if sel.extractLsb' 8 1 = 0#1 then .ok .assembleNone
  else match tagOfByte (sel.extractLsb' 0 8) with
    | some .w16 => .ok (.assemble16 window)
    | some .u32 => .ok (.assembleU32 window)
    | some .s32 => .ok (.assembleS32 window)
    | some .f64 => .ok (.assembleF64 window)
    | none => .error (.illegalTag (sel.extractLsb' 0 8))

/-- The instruction of a code: a command word, or a selector with the engine's window. -/
def decodeCode (c : Code) (window : Window) : Except Reserved Instr :=
  match c with
  | .command w => decode w
  | .selector sel => decodeSelector sel window

/-! ### Encoding -/

/-- Format T (R81): `unit = 0x00`, then the fields from the most significant down. -/
def packT (fid : BitVec 16) (count tag : BitVec 8) (wdata : RegWord) (chk : BitVec 1) : CommandWord :=
  0x00#8 ++ fid ++ count ++ tag ++ wdata ++ chk ++ 0#15

/-- Format C (R81): `unit`, then the operand. -/
def packC (unit : BitVec 8) (value : F64) : CommandWord := unit ++ value

/-- The command word of an accessor's row (R85, R95): the word its user presents. -/
def AccessorRow.word (v : RegWord) : AccessorRow → CommandWord
  | .read addr count tag => packT (functionId fcRead addr) count tag.byte 0#16 0#1
  | .write addr => packT (functionId fcWrite addr) 1#8 0x10#8 v 0#1
  | .writeChk addr => packT (functionId fcWrite addr) 1#8 0x10#8 v 1#1

/-- The command word a name stands for in a table; none where the table does not have the name (R180). -/
def AccessorMap.word (m : AccessorMap) (n : AccessorName) (v : RegWord) : Option CommandWord :=
  (m.row n).map (AccessorRow.word v)

/-- The code of an instruction under a table (R81, R85, R95, R96): a named accessor's is its row's word. The selector
of `ASSEMBLE.NONE` is the one with a zero tag byte. -/
def encodeIn (m : AccessorMap) : Instr → Code
  | .read addr count tag => .command ((AccessorRow.read addr count tag).word 0#16)
  | .write addr v => .command ((AccessorRow.write addr).word v)
  | .writeChk addr v => .command ((AccessorRow.writeChk addr).word v)
  | .compress16 value => .command (packC 0x01#8 value)
  | .compress32 value => .command (packC 0x02#8 value)
  | .assemble16 _ => .selector 0x110#9
  | .assembleU32 _ => .selector 0x120#9
  | .assembleS32 _ => .selector 0x1E0#9
  | .assembleF64 _ => .selector 0x1C0#9
  | .assembleNone => .selector 0x000#9
  | .rdAlarms => .command ((m.shown .rdAlarms).word 0#16)
  | .rdSerial => .command ((m.shown .rdSerial).word 0#16)
  | .rdFwdvolF64 => .command ((m.shown .rdFwdvolF64).word 0#16)
  | .rdFwdvolU32 => .command ((m.shown .rdFwdvolU32).word 0#16)
  | .rdNetvolF64 => .command ((m.shown .rdNetvolF64).word 0#16)
  | .rdNetvolS32 => .command ((m.shown .rdNetvolS32).word 0#16)
  | .wrWeekday v => .command ((m.shown .wrWeekday).word v)
  | .wrDay v => .command ((m.shown .wrDay).word v)
  | .wrMonth v => .command ((m.shown .wrMonth).word v)
  | .wrYear v => .command ((m.shown .wrYear).word v)
  | .wrHours v => .command ((m.shown .wrHours).word v)
  | .wrMinutes v => .command ((m.shown .wrMinutes).word v)
  | .wrVolres v => .command ((m.shown .wrVolres).word v)
  | .wrFlowres v => .command ((m.shown .wrFlowres).word v)

/-- The code of an instruction under the model's table. -/
def encode (i : Instr) : Code := encodeIn accessorMap i

/-- The window operand of a micro-operation, which no code holds; a command has none (here: sixteen zero words). -/
def Instr.windowOperand : Instr → Window
  | .assemble16 w => w
  | .assembleU32 w => w
  | .assembleS32 w => w
  | .assembleF64 w => w
  | _ => Vector.replicate 16 0#16

/-- What the decoder reads from a table row's word `w` of `nbits` bits: a 72-bit command word, or a 9-bit selector
(two bytes), with a window of zero words. -/
def decodeTableWord (nbits w : Nat) : Option Instr :=
  if nbits = 72 ∧ w < 2 ^ 72 then (decode (BitVec.ofNat 72 w)).toOption
  else if nbits ≤ 16 ∧ w < 2 ^ 9 then
    (decodeSelector (BitVec.ofNat 9 w) (Vector.replicate 16 0#16)).toOption
  else none

end Sys2Proof
end

