-- ==== Sys2Proof/Machine/State.lean ====
section
/-! DEFINITION. The state of the block as plain data (10_state.md R20 to R41), its ports (R36), the reasons a run stops
(R15), and the state after reset (R40, R230). -/

namespace Sys2Proof.Machine

/-- `fsm` (R21): the block's only sequencing state. -/
inductive Fsm where
  | idle
  | awaitResponse
deriving DecidableEq, Repr, Inhabited

/-- `PendingTransaction` (R23 to R28). -/
structure PendingTransaction where
  /-- R24: words the current or last transaction asks for; 0 = write-only -/
  registersToRead : BitVec 8
  /-- R25 -/
  responseWidth : WidthTag
  /-- R26 -/
  lastFunctionIdentifier : BitVec 16
  /-- R27: any 8-bit value -/
  lastErrorCode : BitVec 8
deriving DecidableEq, Repr

/-- `DecodedBuffers` (R30): four separate storages. Signed slots are held as their two's complement patterns
(R117 a), `float64` as its 64-bit pattern (D34). -/
structure DecodedBuffers where
  int16 : Window
  int32 : BitVec 32
  uint32 : BitVec 32
  float64 : F64
deriving DecidableEq, Repr

/-- The return port (R36, R93): `valid` from the end of a command until the next command is accepted. -/
structure ReturnPort where
  valid : Bool
  code : BitVec 8
  value : RetValue
deriving DecidableEq, Repr

/-- A Response as the block sees it (R61, R62, R92). -/
structure Response where
  hasException : Bool
  exceptionCode : BitVec 8
  registers : List RegWord
deriving DecidableEq, Repr

/-- What the Transport would answer in one round of the polling loop (R59, R60, R176): `poll` is asked only when
`awaiting` is true, so a round may hold a Response that is never seen (R206, case 4). -/
structure Round where
  awaiting : Bool
  poll : Option Response
deriving DecidableEq, Repr

/-- One call the block makes at the Transport port (R57 to R62). -/
inductive Call where
  | startRead (slaveAddress : BitVec 8) (startAddress : BitVec 16) (registerCount : BitVec 8)
  | startWrite (slaveAddress : BitVec 8) (address : BitVec 16) (value : RegWord)
  | awaiting
  | poll
  | hasException
  | exceptionCode
  | registerAt (index : Nat)
deriving DecidableEq, Repr

/-- The Transport port: the answers still to come, free inputs held as data (R35, R175; DESIGN CHOICE, safe: log
entry 3), and the calls made so far (R173; DESIGN CHOICE, safe: log entry 14). -/
structure Transport where
  /-- answers to the next start calls, in call order -/
  starts : List Bool
  /-- answers in the next polling rounds, in call order -/
  rounds : List Round
  /-- rounds repeated for ever once `rounds` is used up (program P5 of 95_test_vectors.md); none if empty -/
  again : List Round
  /-- how many start answers have been drawn from the free values of Config: the model's own counter -/
  startDraws : Nat
  /-- how many rounds have been drawn from the free values of Config: the model's own counter -/
  roundDraws : Nat
  /-- the calls made, oldest first -/
  calls : List Call
deriving DecidableEq, Repr

/-- The whole state: `fsm`, the groups of R20, and the ports of R36. -/
structure State where
  fsm : Fsm
  pending : PendingTransaction
  buffers : DecodedBuffers
  ret : ReturnPort
  transport : Transport
  /-- the command port's input: the words the Caller will still present, in order (R80; DESIGN CHOICE, safe: log
  entry 2) -/
  commands : List CommandWord
deriving DecidableEq, Repr

/-- Faults: the block has none. R15: "A fault does not exist in this block"; every defined failure is an error code
and the block goes on. So no instruction raises one. -/
inductive Fault
deriving DecidableEq, Repr

/-- Refusals (R15): what the spec gives no meaning. All are safe: the model stops where nothing may be concluded. -/
inductive Refusal where
  /-- An instruction with no meaning yet, named by its mnemonic: raised by an arm of exec only. Safe. -/
  | notModelled (mnemonic : String)
  /-- A reserved command word at the command port, by the case of R89: raised when the engine accepts a command.
  Safe (D16). -/
  | reservedCommand (why : Reserved)
  /-- `COMPRESS16` or `COMPRESS32` of a NaN (R144, U1): raised by these two. Safe (D15). -/
  | nanOperand
  /-- A cast of a floating value outside the integer's range (R136, U2): raised by `COMPRESS16` or `COMPRESS32` if
  it could occur; R142 shows it cannot. Safe. -/
  | castOutOfRange
  /-- A read Response with fewer words than requested (R65, U6): raised by the success step of a `READ`. Safe
  (D21). -/
  | shortResponse
deriving DecidableEq, Repr

/-- The machine right after reset (R40, R230): `fsm = Idle`, the command port open, no Transport call made, no
command ended. Every element R40 leaves unspecified holds a named value nothing is known about (DESIGN CHOICE,
unsafe: log entry 9). -/
def State.reset : State where
  fsm := .idle
  pending :=
    { registersToRead := Config.resetRegistersToRead
      responseWidth := Config.resetResponseWidth
      lastFunctionIdentifier := Config.resetLastFunctionIdentifier
      lastErrorCode := Config.resetLastErrorCode }
  buffers :=
    { int16 := Config.resetInt16
      int32 := Config.resetInt32
      uint32 := Config.resetUint32
      float64 := Config.resetFloat64 }
  ret := { valid := false, code := Config.resetRetCode, value := Config.resetRetValue }
  transport :=
    { starts := [], rounds := [], again := [], startDraws := 0, roundDraws := 0, calls := [] }
  commands := []

end Sys2Proof.Machine
end

