-- ==== Sys2Proof/Machine/Operands.lean ====
section
/-! DEFINITION. Operand forms: the window a Response fills (R29, R169), the values a window assembles to (R68, R112 to
R115), and the micro-operation a record chooses (R111). -/

namespace Sys2Proof.Machine

/-- `window[i] <- r.registerAt(i)` for `i < n` (R169). Entries from `n` on are not read (R112 d) and hold 0. `none`
if the Response is shorter than `n` words (R65, U6). -/
def fillWindow (n : Nat) (r : Response) : Option Window :=
  if n ≤ r.registers.length then
    some (Vector.ofFn fun i => if i.val < n then r.registers.getD i.val 0#16 else 0#16)
  else none

/-- The entries `ASSEMBLE.16` stores (R112): `window[i]` below the fill limit, 0 from it on. -/
def fillInt16 (n : Nat) (w : Window) : Window :=
  Vector.ofFn fun i => if i.val < n then w[i] else 0#16

/-- `(window[0] << 16) | window[1]`: the first register is the high half (R68, R113). -/
def bigRegisterFirst (w : Window) : BitVec 32 := w[0] ++ w[1]

/-- The high byte of a register word (R10 `hi8`). -/
def hi8 (w : RegWord) : BitVec 8 := w.extractLsb' 8 8

/-- The low byte of a register word (R10 `lo8`). -/
def lo8 (w : RegWord) : BitVec 8 := w.extractLsb' 0 8

/-- `H ‖ G ‖ F ‖ E ‖ D ‖ C ‖ B ‖ A` (R115): H, G the bytes of `window[3]`, down to B, A of `window[0]`. -/
def floatPattern (w : Window) : F64 :=
  hi8 w[3] ++ lo8 w[3] ++ hi8 w[2] ++ lo8 w[2] ++ hi8 w[1] ++ lo8 w[1] ++ hi8 w[0] ++ lo8 w[0]

/-- The dispatch of R111 over (`registersToRead`, `responseWidth`). -/
def assembleOp (p : PendingTransaction) (w : Window) : Instr :=
  if p.registersToRead = 0#8 then .assembleNone
  else match p.responseWidth with
    | .w16 => .assemble16 w
    | .u32 => .assembleU32 w
    | .s32 => .assembleS32 w
    | .f64 => .assembleF64 w

end Sys2Proof.Machine
end

