-- ==== Sys2Proof/Machine/Ops.lean ====
section
/-! DEFINITION. The named operations over the state: the Transport's answers, the stages of a transaction command
(R163 to R166), raising an error (R14, R208, R209), and the return of a codec command (R145). -/

namespace Sys2Proof.Machine

/-! ### The Transport port -/

/-- The calls `cs` are made, in order. -/
def Transport.called (t : Transport) (cs : List Call) : Transport :=
  { t with calls := t.calls ++ cs }

/-- The answer to a start call: the next listed one, else a free value (R63). -/
def Transport.nextStart (t : Transport) : Bool × Transport :=
  match t.starts with
  | b :: rest => (b, { t with starts := rest })
  | [] => (Config.freeStart t.startDraws, { t with startDraws := t.startDraws + 1 })

/-- A round of free answers: every answer a free value, a Response of sixteen words (R65; DESIGN CHOICE, unsafe for
claims on free rounds: log entry 4). -/
def freeRound (k : Nat) : Round where
  awaiting := Config.freeAwaiting k
  poll :=
    if Config.freeArrived k then
      some
        { hasException := Config.freeHasException k
          exceptionCode := Config.freeExceptionCode k
          registers := (List.range 16).map (Config.freeRegister k) }
    else none

/-- The answers of the next polling round: the next listed one; when the list is used up, the repeated list from
its start; when there is none, free values. -/
def Transport.nextRound (t : Transport) : Round × Transport :=
  match t.rounds, t.again with
  | r :: rest, _ => (r, { t with rounds := rest })
  | [], r :: rest => (r, { t with rounds := rest })
  | [], [] => (freeRound t.roundDraws, { t with roundDraws := t.roundDraws + 1 })

/-- The block makes the calls `cs` at its Transport port. -/
def State.called (s : State) (cs : List Call) : State :=
  { s with transport := s.transport.called cs }

/-! ### Ends of a command -/

/-- The terminal step of a transaction (R169, R208): the code is stored and returned, the engine is idle. Nothing
else changes. -/
def State.finish (s : State) (code : BitVec 8) : State :=
  { s with
    fsm := .idle
    pending := { s.pending with lastErrorCode := code }
    ret := { valid := true, code := code, value := .absent } }

/-- `raise E(code)` (R14, R208): taking an error, the block's only exception entry. There is no return from it
(R211): control is back at the Caller. -/
def State.raise (s : State) (code : BitVec 8) : State := s.finish code

/-- The smaller entry of a local rejection (R163, R209): the code is returned and nothing else changes. -/
def State.reject (s : State) (code : BitVec 8) : State :=
  { s with ret := { valid := true, code := code, value := .absent } }

/-- The end of a codec command (R145): the pair is returned and nothing else changes. -/
def State.returnPair (s : State) (value : RetValue) (code : BitVec 8) : State :=
  { s with ret := { valid := true, code := code, value := value } }

/-! ### The stages of a transaction command -/

/-- Record (R164): the three request fields are overwritten together; `lastErrorCode` is not touched. -/
def State.record (s : State) (fid : BitVec 16) (words : BitVec 8) (tag : WidthTag) : State :=
  { s with
    pending :=
      { s.pending with
        lastFunctionIdentifier := fid
        registersToRead := words
        responseWidth := tag } }

/-- Start (R165, R166): one start call; busy raises 3, else the engine awaits the response and the return port is
no longer valid (R36). -/
def State.start (s : State) (call : Call) : State :=
  let answer := s.transport.nextStart
  let asked := { s with transport := answer.2.called [call] }
  if answer.1 then
    { asked with fsm := .awaitResponse, ret := { s.ret with valid := false } }
  else asked.raise errChannelBusy

/-- The start call of a read (R165, R57). -/
def readCall (fid : BitVec 16) (words : BitVec 8) : Call :=
  .startRead Config.slaveAddress (deviceAddress fid) words

/-- The start call of a write (R165, R58). -/
def writeCall (fid : BitVec 16) (wdata : RegWord) : Call :=
  .startWrite Config.slaveAddress (deviceAddress fid) wdata

/-- `registersToRead` of a `READ`, in its 8-bit register (R24, R86). -/
def registersToReadOf (count : BitVec 8) (tag : WidthTag) : BitVec 8 :=
  BitVec.ofNat 8 (readWords count tag)

/-- The stages of a read up to the start result (R164 to R166, R170). -/
def startReading (addr count : BitVec 8) (tag : WidthTag) (s : State) : State :=
  let fid := functionId fcRead addr
  let words := registersToReadOf count tag
  (s.record fid words tag).start (readCall fid words)

/-- The stages of a write up to the start result (R164 to R166, R171). -/
def startWriting (addr : BitVec 8) (wdata : RegWord) (s : State) : State :=
  let fid := functionId fcWrite addr
  (s.record fid 0#8 .w16).start (writeCall fid wdata)

/-- A write after the local check (R163, R172): `wdata > 8` is rejected with code 10 before anything else. -/
def startCheckedWriting (addr : BitVec 8) (wdata : RegWord) (s : State) : State :=
  if resMax < wdata then s.reject errResolutionIndex
  else startWriting addr wdata s

end Sys2Proof.Machine
end

