-- ==== Sys2Proof/Machine/Assemble.lean ====
section
/-! DEFINITION. The meanings of the five ASSEMBLE micro-operations (40_codec_assemble.md R110 to R119). Each of the four
filling ones writes all four slots; none raises an error. -/

namespace Sys2Proof.Machine

/-- All four slots at zero (R30, D28). -/
def zeroBuffers : DecodedBuffers where
  int16 := Vector.replicate 16 0#16
  int32 := 0#32
  uint32 := 0#32
  float64 := 0#64

/-- `ASSEMBLE.16` (R112): the first `registersToRead` words, zeros after them, the other slots zeroed. -/
def execAssemble16 (w : Window) (s : State) : Host.Outcome State Fault Refusal :=
  .next { s with buffers :=
    { zeroBuffers with int16 := fillInt16 s.pending.registersToRead.toNat w } }

/-- `ASSEMBLE.U32` (R113). -/
def execAssembleU32 (w : Window) (s : State) : Host.Outcome State Fault Refusal :=
  .next { s with buffers := { zeroBuffers with uint32 := bigRegisterFirst w } }

/-- `ASSEMBLE.S32` (R114). -/
def execAssembleS32 (w : Window) (s : State) : Host.Outcome State Fault Refusal :=
  .next { s with buffers := { zeroBuffers with int32 := bigRegisterFirst w } }

/-- `ASSEMBLE.F64` (R115). -/
def execAssembleF64 (w : Window) (s : State) : Host.Outcome State Fault Refusal :=
  .next { s with buffers := { zeroBuffers with float64 := floatPattern w } }

/-- `ASSEMBLE.NONE` (R116): nothing is read and nothing is written. -/
def execAssembleNone (s : State) : Host.Outcome State Fault Refusal := .next s

end Sys2Proof.Machine
end

