-- ==== Sys2Proof/Machine/Compress.lean ====
section
/-! DEFINITION. The meanings of `COMPRESS16` and `COMPRESS32` (41_codec_compress.md R130 to R149): pure functions of the
operand, their result presented at the return port only. -/

namespace Sys2Proof.Machine

/-- The pair `COMPRESS16` returns (R140), or why the operand is refused (R144, R136). -/
def compress16 (value : F64) : Except Refusal (BitVec 16 × BitVec 8) :=
  let v := FVal.ofBits value
  if v = .nan then .error .nanOperand
  else if (FVal.ofBits hi16).lt v then .ok (int16Max, errOverflow16)
  else if v.lt (FVal.ofBits lo16) then .ok (int16Min, errUnderflow16)
  else match f2i 16 (fround (fmul v (FVal.ofBits scale))) with
    | some n => .ok (n, errSuccess)
    | none => .error .castOutOfRange

/-- Stage two of `COMPRESS32` (R141): a sign disagreement is an overflow or underflow by the operand's sign. R142:
it cannot fire; it stands because the source demands it. -/
def checkSign (scaled : BitVec 32) (v : FVal) : BitVec 32 × BitVec 8 :=
  if disagree scaled v then
    if v.lt FVal.zero then (int32Min, errUnderflow32) else (int32Max, errOverflow32)
  else (scaled, errSuccess)

/-- The pair `COMPRESS32` returns (R141), or why the operand is refused (R144, R136). -/
def compress32 (value : F64) : Except Refusal (BitVec 32 × BitVec 8) :=
  let v := FVal.ofBits value
  if v = .nan then .error .nanOperand
  else if (FVal.ofBits hi32).lt v then .ok (int32Max, errOverflow32)
  else if v.lt (FVal.ofBits lo32) then .ok (int32Min, errUnderflow32)
  else match f2i 32 (fround (fmul v (FVal.ofBits scale))) with
    | some scaled => .ok (checkSign scaled v)
    | none => .error .castOutOfRange

/-- `COMPRESS16` (R140). -/
def execCompress16 (value : F64) (s : State) : Host.Outcome State Fault Refusal :=
  match compress16 value with
  | .ok (v, code) => .next (s.returnPair (.s16 v) code)
  | .error why => .refused why

/-- `COMPRESS32` (R141). -/
def execCompress32 (value : F64) (s : State) : Host.Outcome State Fault Refusal :=
  match compress32 value with
  | .ok (v, code) => .next (s.returnPair (.s32 v) code)
  | .error why => .refused why

end Sys2Proof.Machine
end

