-- ==== Sys2Proof/Machine/NamedAccessors.lean ====
section
/-! DEFINITION. The meanings of the named accessors (R95, R180): each runs `READ`, `WRITE` or `WRITE.CHK` with the operands
its row of the accessor table gives it. The engine knows nothing of names (R180). -/

namespace Sys2Proof.Machine

/-- The command of a row, up to the start result (R180). -/
def startRow (row : AccessorRow) (v : RegWord) (s : State) : State :=
  match row with
  | .read addr count tag => startReading addr count tag s
  | .write addr => startWriting addr v s
  | .writeChk addr => startCheckedWriting addr v s

/-- The accessor of any name of any table (R180): what its row's command does; none where the table does not have the
name. A row whose operands R85 and R88 forbid runs here like any other, on which R180 is silent (DESIGN CHOICE, unsafe
for a claim on such a row: log entry 29); its word, presented to `step`, is refused as reserved (R89). -/
def execAccessor (m : AccessorMap) (n : AccessorName) (v : RegWord) (s : State) :
    Option (Host.Outcome State Fault Refusal) :=
  (m.row n).map fun row => .next (startRow row v s)

/-- `RD.ALARMS` (R95, R170). -/
def execRdAlarms (s : State) : Host.Outcome State Fault Refusal :=
  .next (startRow (accessorMap.shown .rdAlarms) 0#16 s)

/-- `RD.SERIAL` (R95, R170). -/
def execRdSerial (s : State) : Host.Outcome State Fault Refusal :=
  .next (startRow (accessorMap.shown .rdSerial) 0#16 s)

/-- `RD.FWDVOL.F64` (R95, R170). -/
def execRdFwdvolF64 (s : State) : Host.Outcome State Fault Refusal :=
  .next (startRow (accessorMap.shown .rdFwdvolF64) 0#16 s)

/-- `RD.FWDVOL.U32` (R95, R170). -/
def execRdFwdvolU32 (s : State) : Host.Outcome State Fault Refusal :=
  .next (startRow (accessorMap.shown .rdFwdvolU32) 0#16 s)

/-- `RD.NETVOL.F64` (R95, R170). -/
def execRdNetvolF64 (s : State) : Host.Outcome State Fault Refusal :=
  .next (startRow (accessorMap.shown .rdNetvolF64) 0#16 s)

/-- `RD.NETVOL.S32` (R95, R170). -/
def execRdNetvolS32 (s : State) : Host.Outcome State Fault Refusal :=
  .next (startRow (accessorMap.shown .rdNetvolS32) 0#16 s)

/-- `WR.WEEKDAY v` (R95, R171). -/
def execWrWeekday (v : RegWord) (s : State) : Host.Outcome State Fault Refusal :=
  .next (startRow (accessorMap.shown .wrWeekday) v s)

/-- `WR.DAY v` (R95, R171). -/
def execWrDay (v : RegWord) (s : State) : Host.Outcome State Fault Refusal :=
  .next (startRow (accessorMap.shown .wrDay) v s)

/-- `WR.MONTH v` (R95, R171). -/
def execWrMonth (v : RegWord) (s : State) : Host.Outcome State Fault Refusal :=
  .next (startRow (accessorMap.shown .wrMonth) v s)

/-- `WR.YEAR v` (R95, R171). -/
def execWrYear (v : RegWord) (s : State) : Host.Outcome State Fault Refusal :=
  .next (startRow (accessorMap.shown .wrYear) v s)

/-- `WR.HOURS v` (R95, R171). -/
def execWrHours (v : RegWord) (s : State) : Host.Outcome State Fault Refusal :=
  .next (startRow (accessorMap.shown .wrHours) v s)

/-- `WR.MINUTES v` (R95, R171). -/
def execWrMinutes (v : RegWord) (s : State) : Host.Outcome State Fault Refusal :=
  .next (startRow (accessorMap.shown .wrMinutes) v s)

/-- `WR.VOLRES v` (R95, R172). -/
def execWrVolres (v : RegWord) (s : State) : Host.Outcome State Fault Refusal :=
  .next (startRow (accessorMap.shown .wrVolres) v s)

/-- `WR.FLOWRES v` (R95, R172). -/
def execWrFlowres (v : RegWord) (s : State) : Host.Outcome State Fault Refusal :=
  .next (startRow (accessorMap.shown .wrFlowres) v s)

end Sys2Proof.Machine
end

