-- ==== Sys2Proof/Machine/Transactions.lean ====
section
/-! DEFINITION. The meanings of `READ`, `WRITE` and `WRITE.CHK` up to the start result (42_transactions.md R162 to R166,
R170 to R172). The polling that follows is `pollRound`, one round a step (R175 a; DESIGN CHOICE, safe: log entry 1). -/

namespace Sys2Proof.Machine

/-- `READ fid, count, wtag` (R170). -/
def execRead (addr count : BitVec 8) (tag : WidthTag) (s : State) : Host.Outcome State Fault Refusal :=
  .next (startReading addr count tag s)

/-- `WRITE fid, wdata` (R171). -/
def execWrite (addr : BitVec 8) (wdata : RegWord) (s : State) : Host.Outcome State Fault Refusal :=
  .next (startWriting addr wdata s)

/-- `WRITE.CHK fid, wdata` (R172). -/
def execWriteChk (addr : BitVec 8) (wdata : RegWord) (s : State) : Host.Outcome State Fault Refusal :=
  .next (startCheckedWriting addr wdata s)

end Sys2Proof.Machine
end

