-- ==== Sys2Proof/Machine/Dispatch.lean ====
section
/-! DEFINITION. The dispatch: one arm per constructor of Instr, each one call of that instruction's meaning. -/

namespace Sys2Proof.Machine

def exec (i : Instr) (s : State) : Host.Outcome State Fault Refusal :=
  match i with
  | .read addr count tag => Sys2Proof.Machine.execRead addr count tag s
  | .write addr v => Sys2Proof.Machine.execWrite addr v s
  | .writeChk addr v => Sys2Proof.Machine.execWriteChk addr v s
  | .compress16 value => Sys2Proof.Machine.execCompress16 value s
  | .compress32 value => Sys2Proof.Machine.execCompress32 value s
  | .assemble16 w => Sys2Proof.Machine.execAssemble16 w s
  | .assembleU32 w => Sys2Proof.Machine.execAssembleU32 w s
  | .assembleS32 w => Sys2Proof.Machine.execAssembleS32 w s
  | .assembleF64 w => Sys2Proof.Machine.execAssembleF64 w s
  | .assembleNone => Sys2Proof.Machine.execAssembleNone s
  | .rdAlarms => Sys2Proof.Machine.execRdAlarms s
  | .rdSerial => Sys2Proof.Machine.execRdSerial s
  | .rdFwdvolF64 => Sys2Proof.Machine.execRdFwdvolF64 s
  | .rdFwdvolU32 => Sys2Proof.Machine.execRdFwdvolU32 s
  | .rdNetvolF64 => Sys2Proof.Machine.execRdNetvolF64 s
  | .rdNetvolS32 => Sys2Proof.Machine.execRdNetvolS32 s
  | .wrWeekday v => Sys2Proof.Machine.execWrWeekday v s
  | .wrDay v => Sys2Proof.Machine.execWrDay v s
  | .wrMonth v => Sys2Proof.Machine.execWrMonth v s
  | .wrYear v => Sys2Proof.Machine.execWrYear v s
  | .wrHours v => Sys2Proof.Machine.execWrHours v s
  | .wrMinutes v => Sys2Proof.Machine.execWrMinutes v s
  | .wrVolres v => Sys2Proof.Machine.execWrVolres v s
  | .wrFlowres v => Sys2Proof.Machine.execWrFlowres v s

end Sys2Proof.Machine
end

