-- ==== Sys2Proof/Machine/Polling.lean ====
section
/-! DEFINITION. The polling loop and the ends of a transaction (42_transactions.md R167 to R169, R176): one round of the
loop is one step of the machine (R175 a; DESIGN CHOICE, safe: log entry 1). -/

namespace Sys2Proof.Machine

/-- The calls that fill the window: `r.registerAt(0)` to `r.registerAt(n - 1)` (R62, R169). -/
def registerCalls (n : Nat) : List Call := (List.range n).map Call.registerAt

/-- Success (R169): fill the window, run the micro-operation R111 chooses, then code 0. A Response with fewer words
than requested is refused (R65, U6). -/
def succeed (r : Response) (s : State) : Host.Outcome State Fault Refusal :=
  let n := s.pending.registersToRead.toNat
  match fillWindow n r with
  | none => .refused .shortResponse
  | some w =>
    match exec (assembleOp s.pending w) (s.called (registerCalls n)) with
    | .next t => .next (t.finish errSuccess)
    | .fault f => .fault f
    | .refused q => .refused q

/-- A polled Response (R168, R169): examined for an exception before its registers are read (R206, case 5). -/
def respond (r : Response) (s : State) : Host.Outcome State Fault Refusal :=
  if r.hasException then .next ((s.called [.hasException, .exceptionCode]).raise r.exceptionCode)
  else succeed r (s.called [.hasException])

/-- One round of the loop of R176: `T.awaiting()` first; on `false` the timeout of R167; on `true` `T.poll()`, and on
nothing the loop goes on. -/
def pollRound (s : State) : Host.Outcome State Fault Refusal :=
  let answers := s.transport.nextRound
  let s := { s with transport := answers.2 }
  if answers.1.awaiting then
    match answers.1.poll with
    | none => .next (s.called [.awaiting, .poll])
    | some r => respond r (s.called [.awaiting, .poll])
  else .next ((s.called [.awaiting]).raise errTimeout)

end Sys2Proof.Machine
end

