-- ==== Sys2Proof/Machine/Fetch.lean ====
section
/-! DEFINITION. Acceptance of a command at the command port (R80, R162), and placing a word so that the next step runs
it. -/

namespace Sys2Proof.Machine

/-- The engine in `Idle`: it accepts the next command word the Caller presents, decodes it and executes it; a
reserved word is refused (R89); with no word presented nothing happens (DESIGN CHOICE, safe: log entry 2). -/
def acceptCommand (s : State) : Host.Outcome State Fault Refusal :=
  match s.commands with
  | [] => .next s
  | w :: rest =>
    match decode w with
    | .ok i => exec i { s with commands := rest }
    | .error why => .refused (.reservedCommand why)

/-- `s` with a command word presented next, in `Idle`. -/
def State.placeCommand (s : State) (w : CommandWord) : State :=
  { s with fsm := .idle, commands := w :: s.commands }

/-- A Response without exception whose sixteen words are 0. -/
def zeroResponse : Response where
  hasException := false
  exceptionCode := 0#8
  registers := List.replicate 16 0#16

/-- `s` awaiting a response, with the record a selector stands for and a `zeroResponse` in the next round: the
next step runs the micro-operation the selector chooses (R96, R111; DESIGN CHOICE, safe: log entry 22). -/
def State.placeSelector (s : State) (sel : Selector) : State :=
  let tag := (tagOfByte (sel.extractLsb' 0 8)).getD s.pending.responseWidth
  let words := if sel.extractLsb' 8 1 = 0#1 then 0#8 else BitVec.ofNat 8 tag.regsPerValue
  { s with
    fsm := .awaitResponse
    pending := { s.pending with registersToRead := words, responseWidth := tag }
    transport :=
      { s.transport with rounds := ⟨true, some zeroResponse⟩ :: s.transport.rounds } }

end Sys2Proof.Machine
end

