-- ==== Sys2Proof/Machine/Step.lean ====
section
/-! DEFINITION. One step of the machine (R160, R175 a). -/

namespace Sys2Proof.Machine

/-- One transition of R160: in `Idle` a command is accepted; in `AwaitResponse` the loop makes one round, and a
command presented meanwhile is held (R80). -/
def step (s : State) : Host.Outcome State Fault Refusal :=
  match s.fsm with
  | .idle => acceptCommand s
  | .awaitResponse => pollRound s

/-- `s` with a table row's word placed where the next step runs it: a 72-bit word at the command port, a selector of
up to two bytes as the record of an exchange whose response has just arrived (DESIGN CHOICE, safe: log entries 2 and
22). -/
def State.withFetchWord (s : State) (nbits w : Nat) : State :=
  if nbits ≤ 16 then s.placeSelector (BitVec.ofNat 9 w) else s.placeCommand (BitVec.ofNat 72 w)

end Sys2Proof.Machine
end

