-- ==== Sys2Proof/Machine/BigStep.lean ====
section
/-! DEFINITION. The polling loop as one big step whose input is a finite script (R175 b): the waiting rounds at the front
are passed over at once and the first other round ends the command. A script that never ends the loop has no big
step. -/

namespace Sys2Proof.Machine

/-- The rounds in which the loop goes round again (R176): `T.awaiting() = true`, `T.poll() = none`. -/
def Round.waiting (r : Round) : Bool := r.awaiting && r.poll.isNone

/-- The calls `k` waiting rounds make. -/
def waitingCalls : Nat → List Call
  | 0 => []
  | k + 1 => .awaiting :: .poll :: waitingCalls k

/-- The state in which the loop has passed over `k` waiting rounds and `rest` is what the script has left. -/
def State.afterWaiting (s : State) (k : Nat) (rest : List Round) : State :=
  { s with transport :=
    { s.transport with rounds := rest, calls := s.transport.calls ++ waitingCalls k } }

/-- The outcome of the whole loop over the listed script; `none` if the script does not end it. -/
def bigStep (s : State) : Option (Host.Outcome State Fault Refusal) :=
  match s.transport.rounds.dropWhile Round.waiting with
  | [] => none
  | r :: rest =>
    let k := (s.transport.rounds.takeWhile Round.waiting).length
    some (pollRound (s.afterWaiting k (r :: rest)))

end Sys2Proof.Machine
end

