-- ==== Sys2Proof/Machine/Ports.lean ====
section
/-! DEFINITION. What the Caller can see (R33, R36, R252): the state read ports, open in `Idle` and without side effect, and
the return port. The Caller can write no state element. -/

namespace Sys2Proof.Machine

/-- The state read ports of R36. -/
inductive ReadPort where
  | registersToRead
  | responseWidth
  | lastFunctionIdentifier
  | lastErrorCode
  | int16 (i : Fin 16)
  | int32
  | uint32
  | float64
deriving DecidableEq, Repr

/-- What a read port shows, by the type of its element. -/
inductive PortValue where
  | u8 (v : BitVec 8)
  | u16 (v : BitVec 16)
  | u32 (v : BitVec 32)
  | s16 (v : BitVec 16)
  | s32 (v : BitVec 32)
  | f64 (v : F64)
  | tag (v : WidthTag)
deriving DecidableEq, Repr

/-- The content of the element a port reads. -/
def State.element (s : State) : ReadPort → PortValue
  | .registersToRead => .u8 s.pending.registersToRead
  | .responseWidth => .tag s.pending.responseWidth
  | .lastFunctionIdentifier => .u16 s.pending.lastFunctionIdentifier
  | .lastErrorCode => .u8 s.pending.lastErrorCode
  | .int16 i => .s16 s.buffers.int16[i]
  | .int32 => .s32 s.buffers.int32
  | .uint32 => .u32 s.buffers.uint32
  | .float64 => .f64 s.buffers.float64

/-- A Caller's read (R33, R36): the current content in `Idle`; the ports are not open in `AwaitResponse` (D30). -/
def State.readPort (s : State) (p : ReadPort) : Option PortValue :=
  if s.fsm = .idle then some (s.element p) else none

/-- What the return port presents (R36, R93), if it is valid. -/
def State.returned (s : State) : Option (BitVec 8 × RetValue) :=
  if s.ret.valid then some (s.ret.code, s.ret.value) else none

end Sys2Proof.Machine
end

