-- ==== Sys2Proof/Safety.lean ====
section
/-! DEFINITION. The terms claims are stated in: the invariants of the state, and the named premises a claim may take of the
Transport (R64 to R66, R244). -/

namespace Sys2Proof.Machine

/-- `k` steps of the machine, stopping at the first refusal. -/
def run (k : Nat) (s : State) : Host.Outcome State Fault Refusal := Sys2Proof.core.run k s

/-! ### Premises on the Transport -/

/-- The answers of the `k`-th round from now. -/
def Transport.upcoming (t : Transport) : Nat → Round
  | 0 => t.nextRound.1
  | k + 1 => t.nextRound.2.upcoming k

/-- Awaiting (R64), for the exchange in flight: `T.awaiting()` answers true in every round up to the one in which a
Response is pulled, unless the Transport's deadline has passed, from when on it answers false. `deadline` is the first
round after the deadline, `none` if it never passes; its length is open (D22). So a Response that has arrived but is not
yet pulled never makes the Transport stop awaiting; without this premise it may, and is lost (R246). Rounds after the
one that ends the loop belong to later exchanges and are not spoken of. A premise, not built in: log entry 28. -/
def Transport.KeepsAwaiting (t : Transport) (deadline : Option Nat) : Prop :=
  ∀ k, (∀ j, j < k → (t.upcoming j).waiting = true) →
    ((t.upcoming k).awaiting = false ↔ ∃ d, deadline = some d ∧ d ≤ k)

/-- Liveness (R66): some round still to come ends the wait. -/
def Transport.Live (t : Transport) : Prop := ∃ k, (t.upcoming k).waiting = false

/-- Response shape (R65): every Response without exception still to come holds at least `n` words. -/
def Transport.Shaped (t : Transport) (n : Nat) : Prop :=
  ∀ k r, (t.upcoming k).poll = some r → r.hasException = false → n ≤ r.registers.length

/-- `NoZeroException` (R244): the Transport never returns exception code 0. -/
def Transport.NoZeroException (t : Transport) : Prop :=
  ∀ k r, (t.upcoming k).poll = some r → r.hasException = true → r.exceptionCode ≠ 0#8

/-- `ExceptionIn1to4` (D38): every exception code is one the source lists. -/
def Transport.ExceptionIn1to4 (t : Transport) : Prop :=
  ∀ k r, (t.upcoming k).poll = some r → r.hasException = true →
    r.exceptionCode ∈ [1#8, 2#8, 3#8, 4#8]

/-! ### Invariants -/

/-- The record of a request the engine can have in flight (R24 to R26, R86, R88): a write is recorded as 0 words
of width 16 under function code 0x06; a read as 1 to 16 words, whole values of its width, under 0x04. -/
def PendingTransaction.Recorded (p : PendingTransaction) : Prop :=
  if p.registersToRead = 0#8 then
    p.responseWidth = .w16 ∧ p.lastFunctionIdentifier.extractLsb' 8 8 = fcWrite
  else
    p.registersToRead.toNat ≤ 16 ∧ p.responseWidth.regsPerValue ∣ p.registersToRead.toNat ∧
      p.lastFunctionIdentifier.extractLsb' 8 8 = fcRead

/-- While a response is awaited, the record describes a legal request and no return value is presented. -/
def State.Inv (s : State) : Prop :=
  s.fsm = .awaitResponse → s.pending.Recorded ∧ s.ret.valid = false

/-- Exclusivity (R31): at most one of the four slots is not zero. -/
def DecodedBuffers.Exclusive (b : DecodedBuffers) : Prop :=
  (b.int32 = 0#32 ∧ b.uint32 = 0#32 ∧ b.float64 = 0#64) ∨
  (b.int16 = Vector.replicate 16 0#16 ∧ b.uint32 = 0#32 ∧ b.float64 = 0#64) ∨
  (b.int16 = Vector.replicate 16 0#16 ∧ b.int32 = 0#32 ∧ b.float64 = 0#64) ∨
  (b.int16 = Vector.replicate 16 0#16 ∧ b.int32 = 0#32 ∧ b.uint32 = 0#32)

/-- A start call (R57, R58). -/
def Call.isStart : Call → Bool
  | .startRead .. => true
  | .startWrite .. => true
  | _ => false

/-- How many requests the block has asked the Transport to start. -/
def Transport.requests (t : Transport) : Nat := t.calls.countP Call.isStart

end Sys2Proof.Machine
end

