-- ==== Sys2Proof/Certificates/Slice0/Obligations.lean ====
section
/-! DEFINITION. The statements for the provers. Under `Claims`: the words they are stated in, written from the spec's
numbers and not from the model's operations. -/

open Sys2Proof Sys2Proof.Machine

/-! ### Vocabulary -/

/-- A request as the record step and the start call see it (R164, R165). -/
structure Sys2Proof.Claims.Request where
  fid : BitVec 16
  words : BitVec 8
  tag : WidthTag
  call : Call

/-- The request of a `READ` (R83, R86, R165). -/
def Sys2Proof.Claims.readRequest (a c : BitVec 8) (w : WidthTag) : Claims.Request where
  fid := 0x04#8 ++ a
  words := BitVec.ofNat 8 (c.toNat * w.regsPerValue)
  tag := w
  call := .startRead Config.slaveAddress (a.setWidth 16) (BitVec.ofNat 8 (c.toNat * w.regsPerValue))

/-- The request of a `WRITE` (R83, R164, R165). -/
def Sys2Proof.Claims.writeRequest (a : BitVec 8) (v : RegWord) : Claims.Request where
  fid := 0x06#8 ++ a
  words := 0#8
  tag := .w16
  call := .startWrite Config.slaveAddress (a.setWidth 16) v

/-- The request an instruction makes: none for a `WRITE.CHK` of more than 8 (R163) and for the codec. -/
def Sys2Proof.Claims.requestOf (i : Instr) : Option Claims.Request :=
  match i.expand with
  | .read a c w => some (Claims.readRequest a c w)
  | .write a v => some (Claims.writeRequest a v)
  | .writeChk a v => if v.toNat ≤ 8 then some (Claims.writeRequest a v) else none
  | _ => none

/-- The record a request leaves, with an error code (R164). -/
def Sys2Proof.Claims.Request.record (q : Claims.Request) (code : BitVec 8) : PendingTransaction where
  registersToRead := q.words
  responseWidth := q.tag
  lastFunctionIdentifier := q.fid
  lastErrorCode := code

/-- The state once the Transport has taken a request (R164 to R166): every other element as in `s`. -/
def Sys2Proof.Claims.requested (s : State) (q : Claims.Request) (starts : List Bool) : State :=
  { s with
    fsm := .awaitResponse
    pending := q.record s.pending.lastErrorCode
    ret := { s.ret with valid := false }
    transport :=
      { s.transport with starts := starts, calls := s.transport.calls ++ [q.call] } }

/-- The state once the Transport has answered busy (R166): every other element as in `s`. -/
def Sys2Proof.Claims.busy (s : State) (q : Claims.Request) (starts : List Bool) : State :=
  { s with
    fsm := .idle
    pending := q.record 3#8
    ret := ⟨true, 3#8, .absent⟩
    transport :=
      { s.transport with starts := starts, calls := s.transport.calls ++ [q.call] } }

/-- The state after the last round of an exchange: idle, the code stored and returned (R14), the round's calls
made, buffers `b`. -/
def Sys2Proof.Claims.ended (s : State) (code : BitVec 8) (rounds : List Round) (calls : List Call)
    (b : DecodedBuffers) : State :=
  { s with
    fsm := .idle
    pending := { s.pending with lastErrorCode := code }
    ret := ⟨true, code, .absent⟩
    buffers := b
    transport := { s.transport with rounds := rounds, calls := s.transport.calls ++ calls } }

/-- What the buffers hold after `n` words `regs` were decoded at a width (R112 to R115): the slot of the width has
the value, every other slot is zero. -/
def Sys2Proof.Claims.DecodedAs (w : WidthTag) (n : Nat) (regs : List RegWord) (b : DecodedBuffers) :
    Prop :=
  match w with
  | .w16 =>
    (∀ j : Fin 16, b.int16[j] = if j.val < n then regs.getD j.val 0#16 else 0#16) ∧
      b.int32 = 0#32 ∧ b.uint32 = 0#32 ∧ b.float64 = 0#64
  | .u32 =>
    b.uint32.toNat = (regs.getD 0 0#16).toNat * 2 ^ 16 + (regs.getD 1 0#16).toNat ∧
      b.int16 = Vector.replicate 16 0#16 ∧ b.int32 = 0#32 ∧ b.float64 = 0#64
  | .s32 =>
    b.int32.toInt = (regs.getD 0 0#16).toInt * 2 ^ 16 + (regs.getD 1 0#16).toNat ∧
      b.int16 = Vector.replicate 16 0#16 ∧ b.uint32 = 0#32 ∧ b.float64 = 0#64
  | .f64 =>
    b.float64.toNat =
        (regs.getD 3 0#16).toNat * 2 ^ 48 + (regs.getD 2 0#16).toNat * 2 ^ 32 +
          (regs.getD 1 0#16).toNat * 2 ^ 16 + (regs.getD 0 0#16).toNat ∧
      b.int16 = Vector.replicate 16 0#16 ∧ b.int32 = 0#32 ∧ b.uint32 = 0#32

/-- A NaN pattern (R11): exponent field all ones, fraction not zero. -/
def Sys2Proof.Claims.IsNaN (v : F64) : Prop :=
  v.extractLsb' 52 11 = 0x7FF#11 ∧ v.extractLsb' 0 52 ≠ 0#52

/-- The calls `T.awaiting`, `T.poll` of `k` rounds (R173). -/
def Sys2Proof.Claims.pollCalls (k : Nat) : List Call :=
  (List.replicate k [Call.awaiting, Call.poll]).flatten

/-- A reserved command word, by the complete list of R89, (a) to (g), on the bit fields of R81. -/
def Sys2Proof.Claims.ReservedWord (w : CommandWord) : Prop :=
  let unit := w.extractLsb' 64 8
  let fc := w.extractLsb' 56 8
  let count := w.extractLsb' 40 8
  let wtag := w.extractLsb' 32 8
  let wdata := w.extractLsb' 16 16
  let chk := w.extractLsb' 15 1
  let zero := w.extractLsb' 0 15
  let perValue := if wtag = 0x10#8 then 1 else if wtag = 0xC0#8 then 4 else 2
  (unit ≠ 0#8 ∧ unit ≠ 1#8 ∧ unit ≠ 2#8) ∨
  (unit = 0#8 ∧
    ((fc ≠ 0x04#8 ∧ fc ≠ 0x06#8) ∨
     (wtag ≠ 0x10#8 ∧ wtag ≠ 0x20#8 ∧ wtag ≠ 0xE0#8 ∧ wtag ≠ 0xC0#8) ∨
     (fc = 0x04#8 ∧ (count = 0#8 ∨ 16 < count.toNat * perValue)) ∨
     (fc = 0x04#8 ∧ (wdata ≠ 0#16 ∨ chk = 1#1)) ∨
     (fc = 0x06#8 ∧ (count ≠ 1#8 ∨ wtag ≠ 0x10#8)) ∨
     zero ≠ 0#15))

/-! ### Encoding -/

/-- The decoder reads back what the encoder writes, for every well-formed instruction at every operand value; a
micro-operation's window is not in its selector and comes from the engine (R81, R95, R96). -/
def Obligations.DecodeOfEncode : Prop :=
  ∀ i : Instr, i.wellFormed = true → decodeCode (encode i) i.windowOperand = .ok i

/-- The other direction: the word of an accepted command is the one its instruction encodes to, so no two words have
one meaning and no bit is ignored. -/
def Obligations.EncodeOfDecode : Prop :=
  ∀ (w : CommandWord) (i : Instr), decode w = .ok i → encode i = .command w

/-- Legal operands decode under the accessor's name where the model's table has one for them, the model's choice (log
entry 15), and the name expands to the same command. Another accessor table changes names only: it accepts the same
words, for the same commands (R180). -/
def Obligations.DecodeUpToName : Prop :=
  (∀ i : Instr, i.operandsOk = true →
    decodeCode (encode i) i.windowOperand = .ok i.named ∧ i.named.expand = i.expand) ∧
  ∀ (m : AccessorMap) (w : CommandWord),
    (∀ e, decodeIn m w = .error e ↔ decode w = .error e) ∧
    ((∃ i, decodeIn m w = .ok i) ↔ ∃ j, decode w = .ok j) ∧
    ∀ i j, decodeIn m w = .ok i → decode w = .ok j → i.expandIn m = j.expand

/-- The table of R95: each pseudo-instruction's word, and what it expands to. That the word decodes under the
accessor's name is the model's choice (log entry 15). -/
def Obligations.AccessorWordsDecode : Prop :=
  (decode 0x000400011000000000#72 = .ok .rdAlarms ∧ Instr.rdAlarms.expand = .read 0x00#8 1#8 .w16) ∧
  (decode 0x000401101000000000#72 = .ok .rdSerial ∧ Instr.rdSerial.expand = .read 0x01#8 16#8 .w16) ∧
  (decode 0x00041801C000000000#72 = .ok .rdFwdvolF64 ∧
    Instr.rdFwdvolF64.expand = .read 0x18#8 1#8 .f64) ∧
  (decode 0x000436012000000000#72 = .ok .rdFwdvolU32 ∧
    Instr.rdFwdvolU32.expand = .read 0x36#8 1#8 .u32) ∧
  (decode 0x00044201C000000000#72 = .ok .rdNetvolF64 ∧
    Instr.rdNetvolF64.expand = .read 0x42#8 1#8 .f64) ∧
  (decode 0x00045201E000000000#72 = .ok .rdNetvolS32 ∧
    Instr.rdNetvolS32.expand = .read 0x52#8 1#8 .s32) ∧
  ∀ v : RegWord,
    (decode (0x0006010110#40 ++ v ++ 0x0000#16) = .ok (.wrWeekday v) ∧
      (Instr.wrWeekday v).expand = .write 0x01#8 v) ∧
    (decode (0x0006020110#40 ++ v ++ 0x0000#16) = .ok (.wrDay v) ∧
      (Instr.wrDay v).expand = .write 0x02#8 v) ∧
    (decode (0x0006030110#40 ++ v ++ 0x0000#16) = .ok (.wrMonth v) ∧
      (Instr.wrMonth v).expand = .write 0x03#8 v) ∧
    (decode (0x0006040110#40 ++ v ++ 0x0000#16) = .ok (.wrYear v) ∧
      (Instr.wrYear v).expand = .write 0x04#8 v) ∧
    (decode (0x0006050110#40 ++ v ++ 0x0000#16) = .ok (.wrHours v) ∧
      (Instr.wrHours v).expand = .write 0x05#8 v) ∧
    (decode (0x0006060110#40 ++ v ++ 0x0000#16) = .ok (.wrMinutes v) ∧
      (Instr.wrMinutes v).expand = .write 0x06#8 v) ∧
    (decode (0x0006070110#40 ++ v ++ 0x8000#16) = .ok (.wrVolres v) ∧
      (Instr.wrVolres v).expand = .writeChk 0x07#8 v) ∧
    (decode (0x0006080110#40 ++ v ++ 0x8000#16) = .ok (.wrFlowres v) ∧
      (Instr.wrFlowres v).expand = .writeChk 0x08#8 v)

/-- A few words: those of 95_test_vectors.md section 2.1, V-E-13 and V-E-15 to V-E-27; three written out from the
fields of R81 and R85, at the addresses 0x0437 and 0x0609; the selectors of R96. The word of V-E-13 is the `WRITE.CHK`
to address 0x0007 that its row names; that it decodes under the accessor's name `WR.VOLRES`, which expands to that
`WRITE.CHK`, is the model's choice (log entry 15). -/
def Obligations.SampleWordsDecode : Prop :=
  decode 0x014028AE147AE147AE#72 = .ok (.compress16 0x4028AE147AE147AE#64) ∧
  decode 0x02C0934A3D70A3D70A#72 = .ok (.compress32 0xC0934A3D70A3D70A#64) ∧
  decode 0x000436082000000000#72 = .ok (.read 0x36#8 8#8 .u32) ∧
  decode 0x000607011000098000#72 = .ok (.wrVolres 9#16) ∧
  (Instr.wrVolres 9#16).expand = .writeChk 0x07#8 9#16 ∧
  decode 0x000437082000000000#72 = .ok (.read 0x37#8 8#8 .u32) ∧
  decode 0x000609011000050000#72 = .ok (.write 0x09#8 5#16) ∧
  decode 0x000609011000058000#72 = .ok (.writeChk 0x09#8 5#16) ∧
  decode 0x000436092000000000#72 = .error (.readLength 9#8 .u32) ∧
  decode 0x000400001000000000#72 = .error (.readLength 0#8 .w16) ∧
  decode 0x000400014000000000#72 = .error (.illegalTag 0x40#8) ∧
  decode 0x00040001F000000000#72 = .error (.illegalTag 0xF0#8) ∧
  decode 0x000300011000000000#72 = .error (.unknownFunctionCode 0x03#8) ∧
  decode 0x030000000000000000#72 = .error (.unknownUnit 0x03#8) ∧
  decode 0x000601011000030001#72 = .error .zeroField ∧
  decode 0x000601012000030000#72 = .error .writeFixedFields ∧
  decode 0x000400011000008000#72 = .error .readExtraFields ∧
  decode 0x017FF8000000000000#72 = .ok (.compress16 0x7FF8000000000000#64) ∧
  ∀ w : Window,
    decodeSelector 0x110#9 w = .ok (.assemble16 w) ∧ decodeSelector 0x120#9 w = .ok (.assembleU32 w) ∧
    decodeSelector 0x1E0#9 w = .ok (.assembleS32 w) ∧
    decodeSelector 0x1C0#9 w = .ok (.assembleF64 w) ∧ decodeSelector 0x010#9 w = .ok .assembleNone

/-- Every reserved word (R89), and no other, is refused as reserved when it is accepted: it gets no step, no error
code, and is not executed as a nearby command. -/
def Obligations.ReservedWordsAreRefused : Prop :=
  ∀ (s : State) (w : CommandWord) (rest : List CommandWord),
    s.fsm = .idle → s.commands = w :: rest →
      ((∃ why, step s = .refused (.reservedCommand why)) ↔ Claims.ReservedWord w)

/-! ### Steps, reset and the command port -/

/-- In `Idle` a step runs the decoded instruction of the next command word, that word taken off the command port and
nothing else changed before. -/
def Obligations.StepRunsDecodedCommand : Prop :=
  ∀ (s : State) (w : CommandWord) (rest : List CommandWord) (i : Instr),
    s.fsm = .idle → s.commands = w :: rest → decode w = .ok i →
      step s = exec i { s with commands := rest }

/-- A step on a response runs the micro-operation that R111 chooses, over the window the response fills (R169), and
then stores and returns code 0 in `Idle`. -/
def Obligations.StepRunsMicroOperation : Prop :=
  ∀ (s : State) (r : Response) (rs : List Round) (w : Window) (t : State),
    s.fsm = .awaitResponse → s.transport.rounds = ⟨true, some r⟩ :: rs →
    r.hasException = false → s.pending.registersToRead.toNat ≤ r.registers.length →
    (∀ j : Fin 16, w[j] =
      if j.val < s.pending.registersToRead.toNat then r.registers.getD j.val 0#16 else 0#16) →
    exec (if s.pending.registersToRead = 0#8 then .assembleNone
          else match s.pending.responseWidth with
            | .w16 => .assemble16 w
            | .u32 => .assembleU32 w
            | .s32 => .assembleS32 w
            | .f64 => .assembleF64 w)
        { s with transport :=
          { s.transport with
            rounds := rs
            calls := s.transport.calls ++ [.awaiting, .poll, .hasException] ++
              (List.range s.pending.registersToRead.toNat).map Call.registerAt } } = .next t →
      step s = .next
        { t with
          fsm := .idle
          pending := { t.pending with lastErrorCode := 0#8 }
          ret := ⟨true, 0#8, .absent⟩ }

/-- With no command presented the idle engine stays as it is: the model's own reading of an open, empty command port
(log entry 2). -/
def Obligations.IdleWithoutCommandStays : Prop :=
  ∀ s : State, s.fsm = .idle → s.commands = [] → step s = .next s

/-- A command presented while a response is awaited has no effect and stays as it is (R80): whatever is presented, the
step is the same and leaves it at the port. -/
def Obligations.CommandsAreHeldWhileAwaiting : Prop :=
  ∀ (s : State) (cs : List CommandWord), s.fsm = .awaitResponse →
    (∀ t, step s = .next t → t.commands = s.commands) ∧
    (∀ t, step s = .next t → step { s with commands := cs } = .next { t with commands := cs }) ∧
    (∀ q, step s = .refused q → step { s with commands := cs } = .refused q)

/-- What reset leaves (70_reset_and_hazards.md section 1): `Idle`, no Transport call made, nothing returned. That no
command is pending and that the machine then stays as it is until one is presented is the model's form of the ports
(log entry 2). -/
def Obligations.ResetLeavesTheEngineIdle : Prop :=
  State.reset.fsm = .idle ∧ State.reset.transport.calls = [] ∧ State.reset.returned = none ∧
    State.reset.commands = [] ∧ step State.reset = .next State.reset

/-- The invariant holds at reset. -/
def Obligations.InvariantAtReset : Prop := State.reset.Inv

/-- The Caller's reads (R36): every element's current content in `Idle`, nothing while a response is awaited. -/
def Obligations.ReadPortsShowTheState : Prop :=
  ∀ s : State,
    (s.fsm = .awaitResponse → ∀ p, s.readPort p = none) ∧
    (s.fsm = .idle →
      s.readPort .registersToRead = some (.u8 s.pending.registersToRead) ∧
      s.readPort .responseWidth = some (.tag s.pending.responseWidth) ∧
      s.readPort .lastFunctionIdentifier = some (.u16 s.pending.lastFunctionIdentifier) ∧
      s.readPort .lastErrorCode = some (.u8 s.pending.lastErrorCode) ∧
      (∀ j : Fin 16, s.readPort (.int16 j) = some (.s16 s.buffers.int16[j])) ∧
      s.readPort .int32 = some (.s32 s.buffers.int32) ∧
      s.readPort .uint32 = some (.u32 s.buffers.uint32) ∧
      s.readPort .float64 = some (.f64 s.buffers.float64))

/-! ### Starting a transaction -/

/-- `READ` and the six named reads (`RD.ALARMS`, `RD.SERIAL`, `RD.FWDVOL.F64`, `RD.FWDVOL.U32`, `RD.NETVOL.F64`,
`RD.NETVOL.S32`), the request taken: the record is overwritten, one `startRead` is called, the engine awaits the
response; nothing else changes (R164, R165, R166, R170). -/
def Obligations.ReadsStartTheirRequest : Prop :=
  ∀ (i : Instr) (a c : BitVec 8) (w : WidthTag) (s : State) (rest : List Bool),
    i.expand = .read a c w → s.transport.starts = true :: rest →
      exec i s = .next (Claims.requested s (Claims.readRequest a c w) rest)

/-- `WRITE` and the six named writes (`WR.WEEKDAY`, `WR.DAY`, `WR.MONTH`, `WR.YEAR`, `WR.HOURS`, `WR.MINUTES`), and
`WRITE.CHK`, `WR.VOLRES`, `WR.FLOWRES` of 0 to 8, the request taken: recorded as 0 words of width 16, one
`startWrite` of the word as given is called; nothing else changes (R164, R165, R166, R171, R172). -/
def Obligations.WritesStartTheirRequest : Prop :=
  ∀ (i : Instr) (a : BitVec 8) (v : RegWord) (s : State) (rest : List Bool),
    (i.expand = .write a v ∨ (i.expand = .writeChk a v ∧ v.toNat ≤ 8)) →
    s.transport.starts = true :: rest →
      exec i s = .next (Claims.requested s (Claims.writeRequest a v) rest)

/-- Record, start and start result (R164 to R166), for every transaction command: the record is overwritten and
exactly one start call made, whatever the answer; on `true` the engine awaits the response; on `false` code 3 is
stored and returned, the engine stays idle, no poll is made and no decode buffer changes. -/
def Obligations.StartAnswerDecides : Prop :=
  ∀ (i : Instr) (q : Claims.Request) (s : State) (rest : List Bool),
    Claims.requestOf i = some q →
    (s.transport.starts = true :: rest → exec i s = .next (Claims.requested s q rest)) ∧
    (s.transport.starts = false :: rest → exec i s = .next (Claims.busy s q rest))

/-- Local precondition (R163): `WRITE.CHK`, `WR.VOLRES` and `WR.FLOWRES` of more than 8 return code 10 and change
nothing else, whatever the Transport would answer; 0 to 8 pass and do what `WRITE` does. -/
def Obligations.ResolutionIndexIsChecked : Prop :=
  ∀ (i : Instr) (a : BitVec 8) (v : RegWord) (s : State), i.expand = .writeChk a v →
    (8 < v.toNat → exec i s = .next { s with ret := ⟨true, 10#8, .absent⟩ }) ∧
    (v.toNat ≤ 8 → exec i s = exec (.write a v) s)

/-- When the Transport's answer is a free value, a transaction command still completes in one of the two ways (R63). -/
def Obligations.FreeStartAnswerCompletes : Prop :=
  ∀ (i : Instr) (q : Claims.Request) (s : State),
    Claims.requestOf i = some q → s.transport.starts = [] →
      ∃ t, exec i s = .next t ∧ t.buffers = s.buffers ∧ t.commands = s.commands ∧
        t.transport.calls = s.transport.calls ++ [q.call] ∧
        ((t.fsm = .awaitResponse ∧ t.pending = q.record s.pending.lastErrorCode) ∨
         (t.fsm = .idle ∧ t.pending = q.record 3#8 ∧ t.ret = ⟨true, 3#8, .absent⟩))

/-- A named accessor does what it expands to, in every state; and so does every name of every accessor table (R180):
what its row's command does, whether its user runs it or presents its word, unless that word is reserved. Of a name the
table does not have nothing is said. That a row with operands R85 and R88 forbid runs too, when it is not presented as a
word, is the model's choice (log entry 29). -/
def Obligations.AccessorsDoWhatTheyExpandTo : Prop :=
  (∀ (i : Instr) (s : State), exec i s = exec i.expand s) ∧
  ∀ (m : AccessorMap) (n : AccessorName) (v : RegWord) (s : State),
    (∀ a c t, m.row n = some (.read a c t) → execAccessor m n v s = some (exec (.read a c t) s)) ∧
    (∀ a, m.row n = some (.write a) → execAccessor m n v s = some (exec (.write a v) s)) ∧
    (∀ a, m.row n = some (.writeChk a) → execAccessor m n v s = some (exec (.writeChk a v) s)) ∧
    (m.row n = none → execAccessor m n v s = none) ∧
    ∀ word rest, m.word n v = some word → ¬Claims.ReservedWord word →
      s.fsm = .idle → s.commands = word :: rest →
        execAccessor m n v { s with commands := rest } = some (step s)

/-! ### The polling loop -/

/-- A waiting round (R176): `T.awaiting` is asked, then `T.poll`, and the loop writes no state of the block. -/
def Obligations.WaitingRoundGoesOn : Prop :=
  ∀ (s : State) (rs : List Round), s.fsm = .awaitResponse →
    s.transport.rounds = ⟨true, none⟩ :: rs →
      step s = .next
        { s with transport :=
          { s.transport with rounds := rs, calls := s.transport.calls ++ [.awaiting, .poll] } }

/-- Timeout (R167): when `T.awaiting` answers false the command ends with code 5, in the first round too, and
whatever a poll would have given, for no poll is made. -/
def Obligations.TimeoutEndsTheCommand : Prop :=
  ∀ (s : State) (p : Option Response) (rs : List Round), s.fsm = .awaitResponse →
    s.transport.rounds = ⟨false, p⟩ :: rs →
      step s = .next (Claims.ended s 5#8 rs [.awaiting] s.buffers)

/-- Exception (R168): the code of the response is copied as it is, all 8 bits; the codec is not invoked and no decode
buffer is written. -/
def Obligations.ExceptionEndsTheCommand : Prop :=
  ∀ (s : State) (r : Response) (rs : List Round), s.fsm = .awaitResponse →
    s.transport.rounds = ⟨true, some r⟩ :: rs → r.hasException = true →
      step s = .next (Claims.ended s r.exceptionCode rs
        [.awaiting, .poll, .hasException, .exceptionCode] s.buffers)

/-- Success (R169): the words are taken in order, decoded at the recorded width if there are any, and code 0 is
stored and returned, all in one step; a write decodes nothing. -/
def Obligations.SuccessEndsTheCommand : Prop :=
  ∀ (s : State) (r : Response) (rs : List Round), s.fsm = .awaitResponse →
    s.transport.rounds = ⟨true, some r⟩ :: rs → r.hasException = false →
    s.pending.registersToRead.toNat ≤ r.registers.length → s.Inv →
      ∃ b, step s = .next (Claims.ended s 0#8 rs
          ([.awaiting, .poll, .hasException] ++
            (List.range s.pending.registersToRead.toNat).map Call.registerAt) b) ∧
        (s.pending.registersToRead = 0#8 → b = s.buffers) ∧
        (s.pending.registersToRead ≠ 0#8 →
          Claims.DecodedAs s.pending.responseWidth s.pending.registersToRead.toNat r.registers b)

/-- A response with fewer words than requested is refused: the treatment 93_implementation_defined.md U6 names for a
model that does not assume the response shape. -/
def Obligations.ShortResponseIsRefused : Prop :=
  ∀ (s : State) (r : Response) (rs : List Round), s.fsm = .awaitResponse →
    s.transport.rounds = ⟨true, some r⟩ :: rs → r.hasException = false →
    r.registers.length < s.pending.registersToRead.toNat →
      step s = .refused .shortResponse

/-! ### Whole transactions -/

/-- A read from presentation to return: `k` waiting rounds and a response of at least the words asked for leave the
engine idle with code 0, the record of the request, the decoded value in the slot of its width and zero in the
others, having made exactly the calls of 42_transactions.md's outcome table. -/
def Obligations.ReadRunsToSuccess : Prop :=
  ∀ (s : State) (i : Instr) (a c : BitVec 8) (w : WidthTag) (word : CommandWord)
    (rest : List CommandWord) (ss : List Bool) (k : Nat) (r : Response) (rs : List Round),
    s.fsm = .idle → s.commands = word :: rest → decode word = .ok i → i.expand = .read a c w →
    s.transport.starts = true :: ss →
    s.transport.rounds = List.replicate k ⟨true, none⟩ ++ ⟨true, some r⟩ :: rs →
    r.hasException = false → c.toNat * w.regsPerValue ≤ r.registers.length →
      ∃ b, Claims.DecodedAs w (c.toNat * w.regsPerValue) r.registers b ∧
        run (k + 2) s = .next
          { fsm := .idle
            pending := (Claims.readRequest a c w).record 0#8
            buffers := b
            ret := ⟨true, 0#8, .absent⟩
            transport :=
              { s.transport with
                starts := ss
                rounds := rs
                calls := s.transport.calls ++ [(Claims.readRequest a c w).call] ++
                  Claims.pollCalls (k + 1) ++ [.hasException] ++
                  (List.range (c.toNat * w.regsPerValue)).map Call.registerAt }
            commands := rest }

/-- A write from presentation to return: a response without exception leaves the engine idle with code 0 and the
record of the request; the decode buffers are untouched. -/
def Obligations.WriteRunsToSuccess : Prop :=
  ∀ (s : State) (i : Instr) (a : BitVec 8) (v : RegWord) (word : CommandWord)
    (rest : List CommandWord) (ss : List Bool) (k : Nat) (r : Response) (rs : List Round),
    s.fsm = .idle → s.commands = word :: rest → decode word = .ok i →
    (i.expand = .write a v ∨ (i.expand = .writeChk a v ∧ v.toNat ≤ 8)) →
    s.transport.starts = true :: ss →
    s.transport.rounds = List.replicate k ⟨true, none⟩ ++ ⟨true, some r⟩ :: rs →
    r.hasException = false →
      run (k + 2) s = .next
        { fsm := .idle
          pending := (Claims.writeRequest a v).record 0#8
          buffers := s.buffers
          ret := ⟨true, 0#8, .absent⟩
          transport :=
            { s.transport with
              starts := ss
              rounds := rs
              calls := s.transport.calls ++ [(Claims.writeRequest a v).call] ++
                Claims.pollCalls (k + 1) ++ [.hasException] }
          commands := rest }

/-- A transaction that fails while it waits, from presentation to return: a timeout gives code 5, an exception its own
code; the record is the new request's and the decode buffers keep their stale values. -/
def Obligations.FailedTransactionKeepsBuffers : Prop :=
  ∀ (s : State) (i : Instr) (q : Claims.Request) (word : CommandWord) (rest : List CommandWord)
    (ss : List Bool) (k : Nat) (last : Round) (rs : List Round) (code : BitVec 8)
    (calls : List Call),
    s.fsm = .idle → s.commands = word :: rest → decode word = .ok i →
    Claims.requestOf i = some q → s.transport.starts = true :: ss →
    s.transport.rounds = List.replicate k ⟨true, none⟩ ++ last :: rs →
    ((last.awaiting = false ∧ code = 5#8 ∧ calls = [.awaiting]) ∨
     (last.awaiting = true ∧ ∃ r, last.poll = some r ∧ r.hasException = true ∧
       code = r.exceptionCode ∧ calls = [.awaiting, .poll, .hasException, .exceptionCode])) →
      run (k + 2) s = .next
        { fsm := .idle
          pending := q.record code
          buffers := s.buffers
          ret := ⟨true, code, .absent⟩
          transport :=
            { s.transport with
              starts := ss
              rounds := rs
              calls := s.transport.calls ++ [q.call] ++ Claims.pollCalls k ++ calls }
          commands := rest }

/-- The two granularities of R175 agree: where the listed script ends the loop, the big step is the outcome of the
small steps; where it does not, there is no big step and the small steps are still waiting. -/
def Obligations.BigStepAgreesWithSmallSteps : Prop :=
  ∀ s : State, s.fsm = .awaitResponse →
    (∀ o, bigStep s = some o →
      run ((s.transport.rounds.takeWhile Round.waiting).length + 1) s = o) ∧
    (bigStep s = none →
      ∃ t, run s.transport.rounds.length s = .next t ∧ t.fsm = .awaitResponse ∧
        t.transport.rounds = [] ∧ t.buffers = s.buffers ∧ t.pending = s.pending)

/-- Liveness makes a transaction end (R66): if some round still to come is not a waiting one, and responses have the
shape of R65, the engine is idle again after finitely many steps. -/
def Obligations.LiveTransportEndsTheWait : Prop :=
  ∀ s : State, s.fsm = .awaitResponse → s.transport.Live →
    s.transport.Shaped s.pending.registersToRead.toNat →
      ∃ k t, run k s = .next t ∧ t.fsm = .idle ∧ t.ret.valid = true

/-- The wait can hang (R245): while every round to come is a waiting one the command never ends, however many steps
are taken; the engine awaits, returns nothing and accepts no further command. -/
def Obligations.WaitCanHang : Prop :=
  ∀ s : State, s.fsm = .awaitResponse → (∀ k, (s.transport.upcoming k).waiting = true) →
    ∀ n, ∃ t, run n s = .next t ∧ t.fsm = .awaitResponse ∧ t.ret = s.ret ∧
      t.commands = s.commands ∧ t.pending = s.pending ∧ t.buffers = s.buffers

/-! ### The ASSEMBLE micro-operations -/

/-- `ASSEMBLE.16` (R112), selected by tag 16 and some register: the words below the fill limit, zeros from it on,
the 32- and 64-bit slots cleared; nothing but the buffers changes. -/
def Obligations.Assemble16Fills : Prop :=
  ∀ (w : Window) (s : State), decodeSelector 0x110#9 w = .ok (.assemble16 w) ∧ ∃ b : DecodedBuffers,
    exec (.assemble16 w) s = .next { s with buffers := b } ∧
    (∀ j : Fin 16, b.int16[j] =
      if j.val < s.pending.registersToRead.toNat then w[j] else 0#16) ∧
    b.int32 = 0#32 ∧ b.uint32 = 0#32 ∧ b.float64 = 0#64

/-- `ASSEMBLE.U32` (R113): the first register is the high half; the other three slots are zero; nothing but the
buffers changes. -/
def Obligations.AssembleU32Fills : Prop :=
  ∀ (w : Window) (s : State), decodeSelector 0x120#9 w = .ok (.assembleU32 w) ∧ ∃ b : DecodedBuffers,
    exec (.assembleU32 w) s = .next { s with buffers := b } ∧
    b.uint32.toNat = w[0].toNat * 2 ^ 16 + w[1].toNat ∧
    b.int32 = 0#32 ∧ b.int16 = Vector.replicate 16 0#16 ∧ b.float64 = 0#64

/-- `ASSEMBLE.S32` (R114): the same pattern read as signed, so that bit 15 of `window[0]` is the sign; the other three
slots are zero; nothing but the buffers changes. -/
def Obligations.AssembleS32Fills : Prop :=
  ∀ (w : Window) (s : State), decodeSelector 0x1E0#9 w = .ok (.assembleS32 w) ∧ ∃ b : DecodedBuffers,
    exec (.assembleS32 w) s = .next { s with buffers := b } ∧
    b.int32.toInt = w[0].toInt * 2 ^ 16 + w[1].toNat ∧
    b.uint32 = 0#32 ∧ b.int16 = Vector.replicate 16 0#16 ∧ b.float64 = 0#64

/-- `ASSEMBLE.F64` (R115): bytes H to A, H and G those of `window[3]`; equally, the first register is the least
significant word; the other three slots are zero; nothing but the buffers changes. -/
def Obligations.AssembleF64Fills : Prop :=
  ∀ (w : Window) (s : State), decodeSelector 0x1C0#9 w = .ok (.assembleF64 w) ∧ ∃ b : DecodedBuffers,
    exec (.assembleF64 w) s = .next { s with buffers := b } ∧
    b.float64 =
      w[3].extractLsb' 8 8 ++ w[3].extractLsb' 0 8 ++ w[2].extractLsb' 8 8 ++
        w[2].extractLsb' 0 8 ++ w[1].extractLsb' 8 8 ++ w[1].extractLsb' 0 8 ++
        w[0].extractLsb' 8 8 ++ w[0].extractLsb' 0 8 ∧
    b.float64 = w[3] ++ w[2] ++ w[1] ++ w[0] ∧
    b.int32 = 0#32 ∧ b.uint32 = 0#32 ∧ b.int16 = Vector.replicate 16 0#16

/-- `ASSEMBLE.NONE` (R116): selected where no register is asked for, whatever `responseWidth` holds; nothing is
written. -/
def Obligations.AssembleNoneWritesNothing : Prop :=
  ∀ s : State, exec .assembleNone s = .next s ∧
    ∀ (sel : Selector) (w : Window), sel.extractLsb' 8 1 = 0#1 →
      decodeSelector sel w = .ok .assembleNone

/-- Exact recovery: a 32-bit or 64-bit pattern split into register words by the inverse mapping of
40_codec_assemble.md section 3 is assembled to itself, for every pattern, NaN payloads included. -/
def Obligations.AssembleInvertsSplit : Prop :=
  ∀ (p : BitVec 32) (q : BitVec 64) (w : Window) (s : State),
    (w[0] = p.extractLsb' 16 16 → w[1] = p.extractLsb' 0 16 →
      (∃ t, exec (.assembleU32 w) s = .next t ∧ t.buffers.uint32 = p) ∧
      (∃ t, exec (.assembleS32 w) s = .next t ∧ t.buffers.int32 = p)) ∧
    (w[0] = q.extractLsb' 0 16 → w[1] = q.extractLsb' 16 16 → w[2] = q.extractLsb' 32 16 →
      w[3] = q.extractLsb' 48 16 →
      ∃ t, exec (.assembleF64 w) s = .next t ∧ t.buffers.float64 = q)

/-- Exclusivity (R31): right after a successful read, the slots other than the one `responseWidth` names are zero,
and at width 16 so are the entries from `registersToRead` on. -/
def Obligations.SuccessfulReadIsExclusive : Prop :=
  ∀ (s : State) (r : Response) (rs : List Round), s.fsm = .awaitResponse →
    s.transport.rounds = ⟨true, some r⟩ :: rs → r.hasException = false →
    s.pending.registersToRead ≠ 0#8 → s.pending.registersToRead.toNat ≤ r.registers.length →
      ∃ t, step s = .next t ∧
        (t.pending.responseWidth ≠ .w16 → t.buffers.int16 = Vector.replicate 16 0#16) ∧
        (t.pending.responseWidth ≠ .u32 → t.buffers.uint32 = 0#32) ∧
        (t.pending.responseWidth ≠ .s32 → t.buffers.int32 = 0#32) ∧
        (t.pending.responseWidth ≠ .f64 → t.buffers.float64 = 0#64) ∧
        (t.pending.responseWidth = .w16 →
          ∀ j : Fin 16, t.pending.registersToRead.toNat ≤ j.val → t.buffers.int16[j] = 0#16)

/-! ### The compress commands -/

/-- The bounds of R132: the exact value of each pattern, that it is within half a unit in the last place of the
decimal literal (so the binary64 nearest it), and its product with 100. A finite number is held in units of 2^-1074. -/
def Obligations.BoundsAreTheSpecsPatterns : Prop :=
  (∃ m, FVal.ofBits 0x40747AB851EB851F#64 = .fin false m ∧
    m * 10 ^ 44 = 32767000000000001591615728102624416351318359375 * unitsPerOne ∧
    2 * (m * 100 - 32767 * unitsPerOne) ≤ 100 * 2 ^ 1030 ∧ 32767 * unitsPerOne ≤ m * 100 ∧
    fmul (.fin false m) (FVal.ofBits 0x4059000000000000#64) = .fin false (32767 * unitsPerOne)) ∧
  (∃ m, FVal.ofBits 0xC0747AE147AE147B#64 = .fin true m ∧
    m * 10 ^ 44 = 32768000000000000682121026329696178436279296875 * unitsPerOne ∧
    2 * (m * 100 - 32768 * unitsPerOne) ≤ 100 * 2 ^ 1030 ∧ 32768 * unitsPerOne ≤ m * 100 ∧
    fmul (.fin true m) (FVal.ofBits 0x4059000000000000#64) = .fin true (32768 * unitsPerOne)) ∧
  (∃ m, FVal.ofBits 0x41747AE147851EB8#64 = .fin false m ∧
    m * 10 ^ 25 = 214748364699999988079071044921875 * unitsPerOne ∧
    2 * (2147483647 * unitsPerOne - m * 100) ≤ 100 * 2 ^ 1046 ∧
    m * 100 ≤ 2147483647 * unitsPerOne ∧
    fmul (.fin false m) (FVal.ofBits 0x4059000000000000#64) =
      .fin false (2147483647 * unitsPerOne)) ∧
  (∃ m, FVal.ofBits 0xC1747AE147AE147B#64 = .fin true m ∧
    m * 10 ^ 28 = 214748364800000004470348358154296875 * unitsPerOne ∧
    2 * (m * 100 - 2147483648 * unitsPerOne) ≤ 100 * 2 ^ 1046 ∧
    2147483648 * unitsPerOne ≤ m * 100 ∧
    fmul (.fin true m) (FVal.ofBits 0x4059000000000000#64) =
      .fin true (2147483648 * unitsPerOne))

/-- Comparison (R133): false with a NaN on either side; the zeros are equal; `+inf` above and `-inf` below every
finite number; finite numbers by value; `x = 0` of the zeros only. -/
def Obligations.ComparisonIsOrdered : Prop :=
  (∀ x, FVal.lt .nan x = false ∧ FVal.lt x .nan = false) ∧
  (∀ s t, FVal.lt (.fin s 0) (.fin t 0) = false) ∧
  (∀ s m, FVal.lt (.fin s m) (.inf false) = true ∧ FVal.lt (.inf false) (.fin s m) = false ∧
    FVal.lt (.inf true) (.fin s m) = true ∧ FVal.lt (.fin s m) (.inf true) = false) ∧
  (∀ m n, (FVal.lt (.fin false m) (.fin false n) = true ↔ m < n) ∧
    (FVal.lt (.fin true m) (.fin true n) = true ↔ n < m) ∧
    (FVal.lt (.fin true m) (.fin false n) = true ↔ 0 < m + n) ∧
    FVal.lt (.fin false m) (.fin true n) = false) ∧
  (∀ x : FVal, x.isZero = true ↔ ∃ s, x = .fin s 0)

/-- Multiplication (R134): the constant 100.0; of finite numbers the product's magnitude has 53 significant bits and
no such one is nearer the exact product, of two equally near the one with an even last place is taken, the sign is
the product's, a magnitude of 2^1024 or more is an infinity; infinities and NaN go through. -/
def Obligations.ProductIsRoundedToNearestEven : Prop :=
  FVal.ofBits 0x4059000000000000#64 = .fin false (100 * unitsPerOne) ∧
  (∀ s, fmul (.inf s) (.fin false (100 * unitsPerOne)) = .inf s) ∧
  fmul .nan (.fin false (100 * unitsPerOne)) = .nan ∧
  ∀ (s t : Bool) (m n : Nat),
    (roundProduct (m * n) < 2 ^ 2098 →
      fmul (.fin s m) (.fin t n) = .fin (s ^^ t) (roundProduct (m * n))) ∧
    (2 ^ 2098 ≤ roundProduct (m * n) → fmul (.fin s m) (.fin t n) = .inf (s ^^ t)) ∧
    (∃ a e, a < 2 ^ 53 ∧ roundProduct (m * n) = a * 2 ^ e) ∧
    (∀ a e : Nat, a < 2 ^ 53 →
      |(roundProduct (m * n) * unitsPerOne : Int) - (m * n : Nat)| ≤
        |((a * 2 ^ e : Nat) * unitsPerOne : Int) - (m * n : Nat)|) ∧
    (2 * (m * n % 2 ^ droppedBits (m * n)) = 2 ^ droppedBits (m * n) →
      roundProduct (m * n) / 2 ^ (droppedBits (m * n) - 1074) % 2 = 0)

/-- Rounding to an integer (R135): the result is a whole number within half of the operand, a tie goes away from
zero, the sign of a zero and the infinities are kept. -/
def Obligations.RoundingTiesGoAwayFromZero : Prop :=
  (∀ s m, ∃ k, fround (.fin s m) = .fin s (k * unitsPerOne) ∧
    2 * (k * unitsPerOne) ≤ 2 * m + unitsPerOne ∧ 2 * m < 2 * (k * unitsPerOne) + unitsPerOne) ∧
  (∀ s k m, 2 * m = (2 * k + 1) * unitsPerOne →
    fround (.fin s m) = .fin s ((k + 1) * unitsPerOne)) ∧
  fround (.fin true 0) = .fin true 0 ∧ (∀ s, fround (.inf s) = .inf s)

/-- Cast (R136): an integer-valued number in range gives the integer of the same value, both zeros give 0; any other
number (out of range, not whole, an infinity, a NaN), for which the rule defines nothing, has no cast. -/
def Obligations.CastKeepsTheInteger : Prop :=
  ∀ n : Nat, n = 16 ∨ n = 32 →
    (∀ (s : Bool) (k : Nat), -(2 : Int) ^ (n - 1) ≤ signedInt s k → signedInt s k < 2 ^ (n - 1) →
      ∃ x, f2i n (.fin s (k * unitsPerOne)) = some x ∧ x.toInt = signedInt s k) ∧
    f2i n (.fin true 0) = some (BitVec.ofNat n 0) ∧
    (∀ (s : Bool) (k : Nat), ¬(-(2 : Int) ^ (n - 1) ≤ signedInt s k ∧ signedInt s k < 2 ^ (n - 1)) →
      f2i n (.fin s (k * unitsPerOne)) = none) ∧
    (∀ (s : Bool) (m : Nat), m % unitsPerOne ≠ 0 → f2i n (.fin s m) = none) ∧
    f2i n .nan = none ∧ ∀ s, f2i n (.inf s) = none

/-- Sign disagreement (R137): neither is zero and one is negative where the other is not. -/
def Obligations.DisagreeComparesSigns : Prop :=
  ∀ (x : BitVec 32) (neg : Bool) (m : Nat),
    (disagree x (.fin neg m) = true ↔
      x.toInt ≠ 0 ∧ m ≠ 0 ∧ ¬(x.toInt < 0 ↔ neg = true)) ∧
    (disagree x (.inf neg) = true ↔ x.toInt ≠ 0 ∧ ¬(x.toInt < 0 ↔ neg = true)) ∧
    (disagree x .nan = true ↔ x.toInt < 0)

/-- `COMPRESS16` (R140), every operand: NaN refused; above `HI16` the clamp and 6; below `LO16` the clamp and 7;
else the scaled, rounded and cast value and 0; that the cast is always in range is the spec's own inference (R142).
Nothing but the return port changes. -/
def Obligations.Compress16Result : Prop :=
  ∀ (v : F64) (s : State),
    (Claims.IsNaN v → exec (.compress16 v) s = .refused .nanOperand) ∧
    (¬Claims.IsNaN v →
      ((FVal.ofBits 0x40747AB851EB851F#64).lt (FVal.ofBits v) = true →
        exec (.compress16 v) s = .next { s with ret := ⟨true, 6#8, .s16 0x7FFF#16⟩ }) ∧
      ((FVal.ofBits v).lt (FVal.ofBits 0xC0747AE147AE147B#64) = true →
        exec (.compress16 v) s = .next { s with ret := ⟨true, 7#8, .s16 0x8000#16⟩ }) ∧
      ((FVal.ofBits 0x40747AB851EB851F#64).lt (FVal.ofBits v) = false →
        (FVal.ofBits v).lt (FVal.ofBits 0xC0747AE147AE147B#64) = false →
        ∃ x, f2i 16 (fround (fmul (FVal.ofBits v) (FVal.ofBits 0x4059000000000000#64))) = some x ∧
          exec (.compress16 v) s = .next { s with ret := ⟨true, 0#8, .s16 x⟩ }))

/-- `COMPRESS32` (R141), every operand, with the two-stage check: NaN refused; above `HI32` the clamp and 8; below
`LO32` the clamp and 9; else the scaled value is checked against the operand's sign; that its cast is always in range is
the spec's own inference (R142). Nothing but the return port changes. -/
def Obligations.Compress32Result : Prop :=
  ∀ (v : F64) (s : State),
    (Claims.IsNaN v → exec (.compress32 v) s = .refused .nanOperand) ∧
    (¬Claims.IsNaN v →
      ((FVal.ofBits 0x41747AE147851EB8#64).lt (FVal.ofBits v) = true →
        exec (.compress32 v) s = .next { s with ret := ⟨true, 8#8, .s32 0x7FFFFFFF#32⟩ }) ∧
      ((FVal.ofBits v).lt (FVal.ofBits 0xC1747AE147AE147B#64) = true →
        exec (.compress32 v) s = .next { s with ret := ⟨true, 9#8, .s32 0x80000000#32⟩ }) ∧
      ((FVal.ofBits 0x41747AE147851EB8#64).lt (FVal.ofBits v) = false →
        (FVal.ofBits v).lt (FVal.ofBits 0xC1747AE147AE147B#64) = false →
        ∃ x, f2i 32 (fround (fmul (FVal.ofBits v) (FVal.ofBits 0x4059000000000000#64))) = some x ∧
          exec (.compress32 v) s = .next
            { s with
              ret :=
                if disagree x (FVal.ofBits v) = true then
                  if FVal.lt (FVal.ofBits v) (.fin false 0) = true then ⟨true, 9#8, .s32 0x80000000#32⟩
                  else ⟨true, 8#8, .s32 0x7FFFFFFF#32⟩
                else ⟨true, 0#8, .s32 x⟩ }))

/-- Stage two cannot fire (41_codec_compress.md, the spec's own inference): an operand within the bounds is cast to an
integer whose sign agrees with it, so every value of the valid interval succeeds. -/
def Obligations.StageTwoNeverFires : Prop :=
  ∀ v : F64, ¬Claims.IsNaN v →
    (FVal.ofBits 0x41747AE147851EB8#64).lt (FVal.ofBits v) = false →
    (FVal.ofBits v).lt (FVal.ofBits 0xC1747AE147AE147B#64) = false →
      ∃ x, f2i 32 (fround (fmul (FVal.ofBits v) (FVal.ofBits 0x4059000000000000#64))) = some x ∧
        disagree x (FVal.ofBits v) = false

/-- Accuracy of a successful compression (41_codec_compress.md, the spec's own inference): the result is within half
and the product's rounding error of 100 times the operand, below 2^-37 for `COMPRESS16` and 2^-22 for `COMPRESS32`. -/
def Obligations.CompressionIsAccurate : Prop :=
  ∀ (v : F64) (neg : Bool) (m : Nat) (s t : State), FVal.ofBits v = .fin neg m →
    (exec (.compress16 v) s = .next t → t.ret.code = 0#8 →
      ∃ x : BitVec 16, t.ret.value = .s16 x ∧
        2 * |x.toInt * unitsPerOne - 100 * signedInt neg m| ≤ unitsPerOne + 2 * 2 ^ 1037) ∧
    (exec (.compress32 v) s = .next t → t.ret.code = 0#8 →
      ∃ x : BitVec 32, t.ret.value = .s32 x ∧
        2 * |x.toInt * unitsPerOne - 100 * signedInt neg m| ≤ unitsPerOne + 2 * 2 ^ 1052)

/-- Special operands (the table of 41_codec_compress.md's corner cases): zeros, smallest subnormals, infinities. -/
def Obligations.SpecialOperandsCompress : Prop :=
  ∀ s : State,
    (∀ v : F64,
      v = 0x0000000000000000#64 ∨ v = 0x8000000000000000#64 ∨ v = 0x0000000000000001#64 ∨
        v = 0x8000000000000001#64 →
      exec (.compress16 v) s = .next { s with ret := ⟨true, 0#8, .s16 0#16⟩ } ∧
      exec (.compress32 v) s = .next { s with ret := ⟨true, 0#8, .s32 0#32⟩ }) ∧
    exec (.compress16 0x7FF0000000000000#64) s = .next { s with ret := ⟨true, 6#8, .s16 0x7FFF#16⟩ } ∧
    exec (.compress16 0xFFF0000000000000#64) s = .next { s with ret := ⟨true, 7#8, .s16 0x8000#16⟩ } ∧
    exec (.compress32 0x7FF0000000000000#64) s = .next { s with ret := ⟨true, 8#8, .s32 0x7FFFFFFF#32⟩ } ∧
    exec (.compress32 0xFFF0000000000000#64) s = .next { s with ret := ⟨true, 9#8, .s32 0x80000000#32⟩ }

/-- No state (R145): a compress command that answers changes the return port and nothing else. -/
def Obligations.CompressWritesNoState : Prop :=
  ∀ (i : Instr) (v : F64) (s t : State), (i = .compress16 v ∨ i = .compress32 v) →
    exec i s = .next t → t = { s with ret := t.ret } ∧ t.ret.valid = true

/-! ### Whole-machine rules -/

/-- The invariant is kept by every step: while a response is awaited the record describes a legal request and
nothing is presented at the return port. -/
def Obligations.StepKeepsInvariant : Prop :=
  ∀ s t : State, s.Inv → step s = .next t → t.Inv

/-- Every step keeps at most one decode slot non-zero. -/
def Obligations.StepKeepsBuffersExclusive : Prop :=
  ∀ s t : State, s.buffers.Exclusive → step s = .next t → t.buffers.Exclusive

/-- Who writes the decode buffers (R32): a step changes them only on the success path of a read. -/
def Obligations.OnlySuccessfulReadsChangeBuffers : Prop :=
  ∀ s t : State, step s = .next t → t.buffers ≠ s.buffers →
    s.fsm = .awaitResponse ∧ s.pending.registersToRead ≠ 0#8 ∧
      t.fsm = .idle ∧ t.ret = ⟨true, 0#8, .absent⟩ ∧
      ∃ r, s.transport.nextRound.1 = ⟨true, some r⟩ ∧ r.hasException = false

/-- The update discipline (R28): the step that accepts a transaction command sets the three request fields to that
command's request, whatever the start answer; no other step changes any of them. -/
def Obligations.RequestFieldsChangeOnlyAtRecord : Prop :=
  ∀ s t : State, step s = .next t →
    (∀ w rest i q, s.fsm = .idle → s.commands = w :: rest → decode w = .ok i →
      Claims.requestOf i = some q → t.pending = q.record t.pending.lastErrorCode) ∧
    ((t.pending.registersToRead = s.pending.registersToRead ∧
      t.pending.responseWidth = s.pending.responseWidth ∧
      t.pending.lastFunctionIdentifier = s.pending.lastFunctionIdentifier) ∨
    (s.fsm = .idle ∧ ∃ w rest i q, s.commands = w :: rest ∧ decode w = .ok i ∧
      Claims.requestOf i = some q ∧ t.pending = q.record t.pending.lastErrorCode))

/-- Life cycle of `lastErrorCode` (R27): a step changes it only as it ends a transaction, and then it equals the code
returned. -/
def Obligations.LastErrorCodeIsTheReturnedCode : Prop :=
  ∀ s t : State, step s = .next t → t.pending.lastErrorCode ≠ s.pending.lastErrorCode →
    t.fsm = .idle ∧ t.ret = ⟨true, t.pending.lastErrorCode, .absent⟩

/-- Order of requests (R74): a step makes at most one start call, only in `Idle`, and takes back no call it made; so
no second request starts before the first has ended. -/
def Obligations.OneRequestAtATime : Prop :=
  ∀ s t : State, step s = .next t →
    (∃ cs, t.transport.calls = s.transport.calls ++ cs) ∧
    t.transport.requests ≤ s.transport.requests + 1 ∧
    (s.fsm = .awaitResponse → t.transport.requests = s.transport.requests)

/-- Error codes alias (70_reset_and_hazards.md's hazard): an exception of code 0 ends as a success would, with nothing
decoded. -/
def Obligations.ZeroExceptionLooksLikeSuccess : Prop :=
  ∀ (s : State) (r : Response) (rs : List Round), s.fsm = .awaitResponse →
    s.transport.rounds = ⟨true, some r⟩ :: rs → r.hasException = true → r.exceptionCode = 0#8 →
      ∃ t, step s = .next t ∧ t.fsm = .idle ∧ t.ret = ⟨true, 0#8, .absent⟩ ∧
        t.pending.lastErrorCode = 0#8 ∧ t.buffers = s.buffers

/-- Under `NoZeroException` code 0 means a response without exception was polled. -/
def Obligations.CodeZeroMeansSuccess : Prop :=
  ∀ s t : State, s.fsm = .awaitResponse → s.transport.NoZeroException → step s = .next t →
    t.fsm = .idle → t.ret.code = 0#8 →
      ∃ r, s.transport.nextRound.1 = ⟨true, some r⟩ ∧ r.hasException = false

/-- The codes a compress command returns (60_exceptions.md's cause table). -/
def Obligations.CompressCodesAreLegal : Prop :=
  ∀ (v : F64) (s t : State),
    (exec (.compress16 v) s = .next t → t.ret.code = 0#8 ∨ t.ret.code = 6#8 ∨ t.ret.code = 7#8) ∧
    (exec (.compress32 v) s = .next t → t.ret.code = 0#8 ∨ t.ret.code = 8#8 ∨ t.ret.code = 9#8)

/-- A step never faults, and refuses only a reserved word, a NaN operand or a short response: no cast is ever out of
range (the spec's own inference), and no instruction lacks a meaning. -/
def Obligations.StepRefusesOnlyWhatTheSpecRefuses : Prop :=
  ∀ s : State, (∃ t, step s = .next t) ∨
    (∃ why, step s = .refused (.reservedCommand why)) ∨
    (step s = .refused .nanOperand ∧ ∃ w rest v, s.commands = w :: rest ∧
      (decode w = .ok (.compress16 v) ∨ decode w = .ok (.compress32 v)) ∧ Claims.IsNaN v) ∨
    (step s = .refused .shortResponse ∧ ∃ r, s.transport.nextRound.1.poll = some r ∧
      r.hasException = false ∧ r.registers.length < s.pending.registersToRead.toNat)

/-! ### The Transport's contract -/

/-- Under the contract of R64 the wait ends at the right event. A Response whose first round comes before the deadline
is pulled in that round and ends the command, with its exception code or with 0, and is never lost to a timeout; if
none comes before the deadline, the first round after it ends the command with code 5 and no decode buffer changes; if
neither ever comes the engine waits. The contract is a premise on the Transport (log entry 28). -/
def Obligations.AwaitingContractDecidesTheEnd : Prop :=
  ∀ (s : State) (deadline : Option Nat), s.fsm = .awaitResponse → s.transport.KeepsAwaiting deadline →
    (∀ k r, (∀ j, j < k → (s.transport.upcoming j).poll = none) →
      (s.transport.upcoming k).poll = some r → (∀ d, deadline = some d → k < d) →
      (r.hasException = false → s.pending.registersToRead.toNat ≤ r.registers.length) →
        ∃ t, run (k + 1) s = .next t ∧ t.fsm = .idle ∧
          t.ret = ⟨true, if r.hasException then r.exceptionCode else 0#8, .absent⟩ ∧
          t.pending.lastErrorCode = t.ret.code) ∧
    (∀ d, deadline = some d → (∀ j, j < d → (s.transport.upcoming j).poll = none) →
        ∃ t, run (d + 1) s = .next t ∧ t.fsm = .idle ∧ t.ret = ⟨true, 5#8, .absent⟩ ∧
          t.pending.lastErrorCode = 5#8 ∧ t.buffers = s.buffers) ∧
    (deadline = none → (∀ j, (s.transport.upcoming j).poll = none) →
        ∀ n, ∃ t, run n s = .next t ∧ t.fsm = .awaitResponse ∧ t.buffers = s.buffers)
end

