-- ==== Sys2Proof/Laws/Float.lean ====
section
/-! SUPPORT. The two roundings of R134 and R135: how far each can be from its argument, and what bounds it keeps. -/

namespace Sys2Proof.Machine

/-! ### Round half to even -/

theorem roundHalfEven_le {n q a : Nat} (hq : 0 < q) (h : n ≤ a * q) : roundHalfEven n q ≤ a := by
  have hd := Nat.div_add_mod n q
  have hm := Nat.mod_lt n hq
  have h1 : n / q ≤ a := Nat.div_le_of_le_mul (by rwa [Nat.mul_comm] at h)
  unfold roundHalfEven
  split
  · next hc =>
    have hr : 0 < n % q := by omega
    have h2 : n / q < a := Nat.div_lt_of_lt_mul (by
      rcases Nat.lt_or_eq_of_le h with h' | h'
      · rwa [Nat.mul_comm] at h'
      · rw [h', Nat.mul_mod_left] at hr; omega)
    omega
  · exact h1

theorem le_roundHalfEven {n q a : Nat} (hq : 0 < q) (h : a * q ≤ n) : a ≤ roundHalfEven n q := by
  have h1 : a ≤ n / q := (Nat.le_div_iff_mul_le hq).2 h
  unfold roundHalfEven
  split <;> omega

/-- The rounded quotient is within half of the divisor of the argument. -/
theorem roundHalfEven_error {n q : Nat} (hq : 0 < q) :
    2 * (roundHalfEven n q * q) ≤ 2 * n + q ∧ 2 * n ≤ 2 * (roundHalfEven n q * q) + q := by
  have hd := Nat.div_add_mod n q
  have hm := Nat.mod_lt n hq
  have hc : q * (n / q) = n / q * q := Nat.mul_comm ..
  have hs : (n / q + 1) * q = n / q * q + q := Nat.succ_mul ..
  unfold roundHalfEven
  split <;> omega

/-! ### Round half away from zero -/

theorem unitsPerOne_pos : 0 < unitsPerOne := by
  rw [unitsPerOne]
  exact Nat.two_pow_pos 1074

/-- The rounded magnitude is within half a unit of the argument. -/
theorem roundHalfAway_error (m : Nat) :
    2 * (roundHalfAway m * unitsPerOne) ≤ 2 * m + unitsPerOne ∧
      2 * m < 2 * (roundHalfAway m * unitsPerOne) + unitsPerOne := by
  have hu := unitsPerOne_pos
  unfold roundHalfAway
  have hd := Nat.div_add_mod (2 * m + unitsPerOne) (2 * unitsPerOne)
  have hm := Nat.mod_lt (2 * m + unitsPerOne) (show 0 < 2 * unitsPerOne by omega)
  have hc : 2 * unitsPerOne * ((2 * m + unitsPerOne) / (2 * unitsPerOne)) =
      2 * ((2 * m + unitsPerOne) / (2 * unitsPerOne) * unitsPerOne) := by ring
  omega

/-- Rounding does not pass an integer by less than a quarter. -/
theorem roundHalfAway_le {m k : Nat} (h : 4 * m ≤ (4 * k + 1) * unitsPerOne) :
    roundHalfAway m ≤ k := by
  have hu := unitsPerOne_pos
  unfold roundHalfAway
  rw [← Nat.lt_succ_iff, Nat.div_lt_iff_lt_mul (by omega)]
  rw [show k.succ * (2 * unitsPerOne) = 2 * (k * unitsPerOne) + 2 * unitsPerOne by
    rw [Nat.succ_eq_add_one]; ring]
  rw [show (4 * k + 1) * unitsPerOne = 4 * (k * unitsPerOne) + unitsPerOne by ring] at h
  generalize k * unitsPerOne = z at *
  omega

/-- What an integer-valued magnitude casts to (R136). -/
theorem f2i_fin_int {n : Nat} {s : Bool} {k : Nat}
    (h : -(2 : Int) ^ (n - 1) ≤ signedInt s k ∧ signedInt s k < 2 ^ (n - 1)) :
    f2i n (.fin s (k * unitsPerOne)) = some (BitVec.ofInt n (signedInt s k)) := by
  simp [f2i, Nat.mul_div_cancel _ unitsPerOne_pos, h]

/-! ### The product -/

/-- The binary64 magnitudes without a bound on the exponent: fewer than 54 significant bits. -/
def Representable (r : Nat) : Prop := ∃ a e, a < 2 ^ 53 ∧ r = a * 2 ^ e

theorem le_droppedBits (n : Nat) : 1074 ≤ droppedBits n := Nat.le_max_left ..

/-- The quantum of a rounded product, split at the unit. -/
theorem two_pow_droppedBits (n : Nat) :
    2 ^ droppedBits n = 2 ^ (droppedBits n - 1074) * unitsPerOne := by
  rw [unitsPerOne, ← Nat.pow_add, Nat.sub_add_cancel (le_droppedBits n)]

/-- The rounded product is within half of its last place of the exact one. -/
theorem roundProduct_error (n : Nat) :
    2 * (roundProduct n * unitsPerOne) ≤ 2 * n + 2 ^ droppedBits n ∧
      2 * n ≤ 2 * (roundProduct n * unitsPerOne) + 2 ^ droppedBits n := by
  have h : roundProduct n * unitsPerOne =
      roundHalfEven n (2 ^ droppedBits n) * 2 ^ droppedBits n := by
    rw [roundProduct, Nat.mul_assoc, ← two_pow_droppedBits]
  rw [h]
  exact roundHalfEven_error (Nat.two_pow_pos _)

/-- A magnitude at least as large as the exact product is a multiple of the product's last place, if it is
representable. -/
theorem lastPlace_dvd {n b : Nat} (hb : Representable b) (hn : 0 < n) (h : n ≤ b * unitsPerOne) :
    2 ^ (droppedBits n - 1074) ∣ b := by
  obtain ⟨a, e, ha, rfl⟩ := hb
  have hk := le_droppedBits n
  rcases Nat.lt_or_ge e (droppedBits n - 1074) with he | he
  · exfalso
    have hd : droppedBits n = n.log2 + 1 - 53 := by
      unfold droppedBits at *; omega
    have hl : 2 ^ n.log2 ≤ n := Nat.log2_self_le (by omega)
    have h1 : a * 2 ^ e * unitsPerOne < 2 ^ (53 + e + 1074) := by
      have hs : 2 ^ (53 + e + 1074) = 2 ^ 53 * (2 ^ e * unitsPerOne) := by
        rw [unitsPerOne, Nat.pow_add, Nat.pow_add, Nat.mul_assoc]
      rw [hs, Nat.mul_assoc]
      exact Nat.mul_lt_mul_of_pos_right ha (Nat.mul_pos (Nat.two_pow_pos _) unitsPerOne_pos)
    have h2 : 2 ^ (53 + e + 1074) ≤ 2 ^ n.log2 := Nat.pow_le_pow_right (by omega) (by omega)
    exact absurd (Nat.lt_of_lt_of_le (Nat.lt_of_le_of_lt h h1) h2) (Nat.not_lt.2 hl)
  · exact Dvd.dvd.mul_left (Nat.pow_dvd_pow 2 he) a

/-- Rounding does not pass a representable magnitude from below. -/
theorem roundProduct_le {n b : Nat} (hb : Representable b) (h : n ≤ b * unitsPerOne) :
    roundProduct n ≤ b := by
  rcases Nat.eq_zero_or_pos n with rfl | hn
  · simp [roundProduct, roundHalfEven]
  obtain ⟨c, rfl⟩ := lastPlace_dvd hb hn h
  rw [Nat.mul_comm _ c, roundProduct]
  refine Nat.mul_le_mul_right _ (roundHalfEven_le (Nat.two_pow_pos _) ?_)
  rw [two_pow_droppedBits, ← Nat.mul_assoc, Nat.mul_comm c]
  exact h

end Sys2Proof.Machine
end

