-- ==== Sys2Proof/Laws/Compress.lean ====
section
/-! SUPPORT. What each compress command can do, said once: a NaN is refused, a bound crossed is a clamp, and what is left
is the scaled and cast value (R140, R141, R144). -/

namespace Sys2Proof.Machine

/-- The operand scaled by 100 and rounded (R134, R135). -/
def scaled (v : FVal) : FVal := fround (fmul v (FVal.ofBits scale))

/-- All `COMPRESS16` can answer (R140, R144). -/
theorem compress16_cases (value : F64) :
    (FVal.ofBits value = .nan ∧ compress16 value = .error .nanOperand) ∨
    (FVal.ofBits value ≠ .nan ∧
      (((FVal.ofBits hi16).lt (FVal.ofBits value) = true ∧
        compress16 value = .ok (int16Max, errOverflow16)) ∨
      ((FVal.ofBits hi16).lt (FVal.ofBits value) = false ∧
        (((FVal.ofBits value).lt (FVal.ofBits lo16) = true ∧
          compress16 value = .ok (int16Min, errUnderflow16)) ∨
        ((FVal.ofBits value).lt (FVal.ofBits lo16) = false ∧
          ((∃ n, f2i 16 (scaled (FVal.ofBits value)) = some n ∧
            compress16 value = .ok (n, errSuccess)) ∨
          (f2i 16 (scaled (FVal.ofBits value)) = none ∧
            compress16 value = .error .castOutOfRange))))))) := by
  unfold compress16 scaled
  dsimp only
  generalize FVal.ofBits value = v
  generalize FVal.ofBits hi16 = hi
  generalize FVal.ofBits lo16 = lo
  generalize f2i 16 (fround (fmul v (FVal.ofBits scale))) = x
  by_cases h : v = .nan
  · exact .inl ⟨h, if_pos h⟩
  refine .inr ⟨h, ?_⟩
  cases h1 : hi.lt v <;> cases h2 : v.lt lo <;> cases x <;> simp [h, h1, h2]

/-- All `COMPRESS32` can answer (R141, R144). -/
theorem compress32_cases (value : F64) :
    (FVal.ofBits value = .nan ∧ compress32 value = .error .nanOperand) ∨
    (FVal.ofBits value ≠ .nan ∧
      (((FVal.ofBits hi32).lt (FVal.ofBits value) = true ∧
        compress32 value = .ok (int32Max, errOverflow32)) ∨
      ((FVal.ofBits hi32).lt (FVal.ofBits value) = false ∧
        (((FVal.ofBits value).lt (FVal.ofBits lo32) = true ∧
          compress32 value = .ok (int32Min, errUnderflow32)) ∨
        ((FVal.ofBits value).lt (FVal.ofBits lo32) = false ∧
          ((∃ n, f2i 32 (scaled (FVal.ofBits value)) = some n ∧
            compress32 value = .ok (checkSign n (FVal.ofBits value))) ∨
          (f2i 32 (scaled (FVal.ofBits value)) = none ∧
            compress32 value = .error .castOutOfRange))))))) := by
  unfold compress32 scaled
  dsimp only
  generalize FVal.ofBits value = v
  generalize FVal.ofBits hi32 = hi
  generalize FVal.ofBits lo32 = lo
  generalize f2i 32 (fround (fmul v (FVal.ofBits scale))) = x
  by_cases h : v = .nan
  · exact .inl ⟨h, if_pos h⟩
  refine .inr ⟨h, ?_⟩
  cases h1 : hi.lt v <;> cases h2 : v.lt lo <;> cases x <;> simp [h, h1, h2]

theorem exec_compress16_ok {value : F64} {v : BitVec 16} {code : BitVec 8}
    (h : compress16 value = .ok (v, code)) (s : State) :
    exec (.compress16 value) s = .next (s.returnPair (.s16 v) code) := by
  simp only [exec, execCompress16, h]

theorem exec_compress16_error {value : F64} {why : Refusal}
    (h : compress16 value = .error why) (s : State) :
    exec (.compress16 value) s = .refused why := by
  simp only [exec, execCompress16, h]

theorem exec_compress32_ok {value : F64} {v : BitVec 32} {code : BitVec 8}
    (h : compress32 value = .ok (v, code)) (s : State) :
    exec (.compress32 value) s = .next (s.returnPair (.s32 v) code) := by
  simp only [exec, execCompress32, h]

theorem exec_compress32_error {value : F64} {why : Refusal}
    (h : compress32 value = .error why) (s : State) :
    exec (.compress32 value) s = .refused why := by
  simp only [exec, execCompress32, h]

/-- The answer of `COMPRESS32` where its operand is within the bounds (R141). -/
theorem exec_compress32_checked {value : F64} {n : BitVec 32} {v : FVal}
    (h : compress32 value = .ok (checkSign n v)) (s : State) :
    exec (.compress32 value) s =
      .next (s.returnPair (.s32 (checkSign n v).1) (checkSign n v).2) := by
  generalize checkSign n v = p at h ⊢
  exact exec_compress32_ok (v := p.1) (code := p.2) h s

/-! ### The scaled value -/

/-- The scale factor as a number (R134). -/
theorem scale_eq : FVal.ofBits scale = .fin false (100 * unitsPerOne) := by decide +kernel

theorem unitsPerOne_eq : unitsPerOne = 4 * 2 ^ 1072 := by
  rw [unitsPerOne, show 1074 = 2 + 1072 by rfl, Nat.pow_add]

/-- Scaling does not carry an operand past a bound: if 100 times it is at most `k` and a quarter, the scaled value is
an integer of at most `k`, with the operand's sign. -/
theorem scaled_le (s : Bool) (m k : Nat) (hk : 4 * k + 1 < 2 ^ 53)
    (hm : m * 400 ≤ (4 * k + 1) * unitsPerOne) :
    ∃ j, j ≤ k ∧ scaled (.fin s m) = .fin s (j * unitsPerOne) ∧ (m = 0 → j = 0) := by
  have hr : roundProduct (m * (100 * unitsPerOne)) ≤ (4 * k + 1) * 2 ^ 1072 := by
    apply roundProduct_le ⟨_, _, hk, rfl⟩
    rw [unitsPerOne_eq] at hm ⊢
    generalize 2 ^ 1072 = w at *
    have h1 : m * 100 ≤ (4 * k + 1) * w := by
      have : (4 * k + 1) * (4 * w) = 4 * ((4 * k + 1) * w) := by ring
      omega
    rw [show m * (100 * (4 * w)) = m * 100 * (4 * w) by ring]
    exact Nat.mul_le_mul_right (4 * w) h1
  have hlt : roundProduct (m * (100 * unitsPerOne)) < infinityUnits := by
    refine Nat.lt_of_le_of_lt hr ?_
    refine Nat.lt_trans (Nat.mul_lt_mul_of_pos_right hk (Nat.two_pow_pos _)) ?_
    rw [← Nat.pow_add, infinityUnits]
    exact Nat.pow_lt_pow_right (by omega) (by omega)
  refine ⟨roundHalfAway (roundProduct (m * (100 * unitsPerOne))), ?_, ?_, ?_⟩
  · apply roundHalfAway_le
    rw [show (4 * k + 1) * unitsPerOne = 4 * ((4 * k + 1) * 2 ^ 1072) by rw [unitsPerOne_eq]; ring]
    exact Nat.mul_le_mul_left 4 hr
  · rw [scaled, scale_eq, fmul, FVal.finOrInf, if_pos hlt, fround]
    simp
  · rintro rfl
    have h0 : roundProduct 0 = 0 := by simp [roundProduct, roundHalfEven]
    have := @roundHalfAway_le 0 0 (by omega)
    rw [Nat.zero_mul, h0]
    omega

/-- What an operand between two finite bounds is (R133): a finite number no larger than the bound of its sign. -/
theorem finite_of_bounds {v : FVal} {hi lo : Nat} (h : v ≠ .nan)
    (h1 : (FVal.fin false hi).lt v = false) (h2 : v.lt (FVal.fin true lo) = false) :
    ∃ s m, v = .fin s m ∧ if s then m ≤ lo else m ≤ hi := by
  cases v with
  | nan => exact absurd rfl h
  | inf b => cases b <;> simp [FVal.lt] at h1 h2
  | fin s m =>
    refine ⟨s, m, rfl, ?_⟩
    simp only [FVal.lt, signedInt, decide_eq_false_iff_not] at h1 h2
    cases s <;> simp at h1 h2 ⊢ <;> omega

end Sys2Proof.Machine
end

