-- ==== Sys2Proof/Laws/Fields.lean ====
section
/-! SUPPORT. The fields of a function identifier and of the words the encoder packs (R81, R83, R86). -/

namespace Sys2Proof

/-- The low field of a concatenation. -/
theorem extractLsb'_low {n m : Nat} (x : BitVec n) (y : BitVec m) :
    (x ++ y).extractLsb' 0 m = y := by
  ext i hi
  simp [BitVec.getLsbD_append, hi]

/-- The high field of a concatenation. -/
theorem extractLsb'_high {n m : Nat} (x : BitVec n) (y : BitVec m) :
    (x ++ y).extractLsb' m n = x := by
  ext i hi
  simp [BitVec.getLsbD_append, hi]

/-- The two fields of a concatenation. -/
theorem append_inj {n m : Nat} {x x' : BitVec n} {y y' : BitVec m} (h : x ++ y = x' ++ y') :
    x = x' ∧ y = y' :=
  ⟨by rw [← extractLsb'_high x y, h, extractLsb'_high], by rw [← extractLsb'_low x y, h, extractLsb'_low]⟩

/-- The address of a function identifier is its low byte, zero-extended (R86). -/
@[simp] theorem deviceAddress_append (fc addr : BitVec 8) :
    deviceAddress (fc ++ addr) = addr.setWidth 16 := by
  rw [deviceAddress, extractLsb'_low]

@[simp] theorem deviceAddress_functionId (fc addr : BitVec 8) :
    deviceAddress (functionId fc addr) = addr.setWidth 16 :=
  deviceAddress_append fc addr

/-- A tag's byte stands for that tag (R84). -/
@[simp] theorem tagOfByte_byte (tag : WidthTag) : tagOfByte tag.byte = some tag := by
  cases tag <;> decide

/-- Only a tag's own byte stands for it (R87). -/
theorem tagOfByte_eq_some {b : BitVec 8} {tag : WidthTag} (h : tagOfByte b = some tag) :
    b = tag.byte := by
  unfold tagOfByte at h
  split at h
  · next hb => cases h; exact hb
  split at h
  · next hb => cases h; exact hb
  split at h
  · next hb => cases h; exact hb
  split at h
  · next hb => cases h; exact hb
  · cases h

section pack

variable (fid : BitVec 16) (count tag : BitVec 8) (v : RegWord) (chk : BitVec 1)

/-- Every field of a packed transaction word is the one it was packed from (R81). -/
theorem packT_fields :
    fieldUnit (packT fid count tag v chk) = 0#8 ∧
    (fieldFc (packT fid count tag v chk) ++ fieldAddr (packT fid count tag v chk)) = fid ∧
    fieldCount (packT fid count tag v chk) = count ∧ fieldTag (packT fid count tag v chk) = tag ∧
    fieldWdata (packT fid count tag v chk) = v ∧ fieldChk (packT fid count tag v chk) = chk ∧
    fieldZero (packT fid count tag v chk) = 0#15 := by
  refine ⟨?_, ?_, ?_, ?_, ?_, ?_, ?_⟩ <;>
    simp only [packT, fieldUnit, fieldFc, fieldAddr, fieldCount, fieldTag, fieldWdata, fieldChk,
      fieldZero] <;> ext i hi <;>
    simp <;> grind

/-- A word is determined by its fields (R81). -/
theorem packT_of_fields (w : CommandWord) (hu : fieldUnit w = 0#8) (hz : fieldZero w = 0#15) :
    w = packT (fieldFc w ++ fieldAddr w) (fieldCount w) (fieldTag w) (fieldWdata w)
      (fieldChk w) := by
  have h1 : ∀ i, i < 8 → w.getLsbD (64 + i) = false := fun i hi => by
    have := congrArg (BitVec.getLsbD · i) hu
    simpa [fieldUnit, hi] using this
  have h2 : ∀ i, i < 15 → w.getLsbD i = false := fun i hi => by
    have := congrArg (BitVec.getLsbD · i) hz
    simpa [fieldZero, hi] using this
  simp only [packT, fieldFc, fieldAddr, fieldCount, fieldTag, fieldWdata, fieldChk]
  refine BitVec.eq_of_getLsbD_eq fun i hi => ?_
  simp only [BitVec.getLsbD_append, BitVec.getLsbD_extractLsb']
  rcases Nat.lt_or_ge i 64 with h | h
  · grind
  · have := h1 (i - 64) (by omega)
    have he : 64 + (i - 64) = i := by omega
    grind

/-- A transaction word split at its data word (R81, R95). -/
theorem packT_split : packT fid count tag v chk =
    (0x00#8 ++ fid ++ count ++ tag) ++ v ++ (chk ++ 0#15) := by
  unfold packT
  exact BitVec.append_assoc ..

end pack

/-- A transaction word in the form R95 writes the named writes' words. -/
theorem packT_named {fid : BitVec 16} {count tag : BitVec 8} {chk : BitVec 1} {high : BitVec 40}
    {low : RegWord} (v : RegWord) (hh : 0x00#8 ++ fid ++ count ++ tag = high)
    (hl : chk ++ 0#15 = low) : packT fid count tag v chk = high ++ v ++ low := by
  rw [packT_split, hh, hl]

end Sys2Proof
end

