-- ==== Sys2Proof/Laws/Decode.lean ====
section
/-! SUPPORT. What the decoder accepts, said once per format, what a row's word decodes to, and that under every
accessor table a name and its expansion agree (R95, R180). -/

namespace Sys2Proof

/-- An accepted word of function code 0x04 (R85, R88). -/
theorem decodeRead_ok {w : CommandWord} {i : Instr} (h : decodeRead w = .ok i) :
    ∃ tag, fieldTag w = tag.byte ∧ readWordsOk (fieldCount w) tag = true ∧ fieldWdata w = 0#16 ∧
      fieldChk w = 0#1 ∧ fieldZero w = 0#15 ∧ i = .read (fieldAddr w) (fieldCount w) tag := by
  unfold decodeRead at h
  split at h
  · cases h
  next tag ht =>
    split at h
    · next h1 =>
      split at h
      · next h2 =>
        split at h
        · next h3 => cases h; exact ⟨tag, tagOfByte_eq_some ht, h1, h2.1, h2.2, h3, rfl⟩
        · cases h
      · cases h
    · cases h

/-- An accepted word of function code 0x06 (R85, R96). -/
theorem decodeWrite_ok {w : CommandWord} {i : Instr} (h : decodeWrite w = .ok i) :
    fieldTag w = 0x10#8 ∧ fieldCount w = 1#8 ∧ fieldZero w = 0#15 ∧
      ((fieldChk w = 0#1 ∧ i = .write (fieldAddr w) (fieldWdata w)) ∨
       (fieldChk w = 1#1 ∧ i = .writeChk (fieldAddr w) (fieldWdata w))) := by
  unfold decodeWrite at h
  split at h
  · cases h
  next tag ht =>
    split at h
    · next h1 =>
      split at h
      · next h2 =>
        have hb := tagOfByte_eq_some ht
        rw [h1.2] at hb
        refine ⟨hb, h1.1, h2, ?_⟩
        split at h
        · next h3 => cases h; exact .inl ⟨h3, rfl⟩
        · next h3 => cases h; exact .inr ⟨by grind, rfl⟩
      · cases h
    · cases h

/-- All the words the decoder accepts (R96). -/
theorem decodeBase_ok {w : CommandWord} {i : Instr} (h : decodeBase w = .ok i) :
    (fieldUnit w = 1#8 ∧ i = .compress16 (fieldValue w)) ∨
    (fieldUnit w = 2#8 ∧ i = .compress32 (fieldValue w)) ∨
    (fieldUnit w = 0#8 ∧ fieldFc w = 4#8 ∧ decodeRead w = .ok i) ∨
    (fieldUnit w = 0#8 ∧ fieldFc w = 6#8 ∧ decodeWrite w = .ok i) := by
  unfold decodeBase at h
  split at h
  · next h1 => cases h; exact .inl ⟨h1, rfl⟩
  split at h
  · next h1 => cases h; exact .inr (.inl ⟨h1, rfl⟩)
  split at h
  · next h1 =>
    split at h
    · next h2 => exact .inr (.inr (.inl ⟨h1, h2, h⟩))
    split at h
    · next h2 => exact .inr (.inr (.inr ⟨h1, h2, h⟩))
    · cases h
  · cases h

/-! ### Names and expansions -/

section expand

variable (v : RegWord)

@[simp] theorem expand_read (a c : BitVec 8) (t : WidthTag) :
    (Instr.read a c t).expand = .read a c t := rfl
@[simp] theorem expand_write (a : BitVec 8) : (Instr.write a v).expand = .write a v := rfl
@[simp] theorem expand_writeChk (a : BitVec 8) : (Instr.writeChk a v).expand = .writeChk a v := rfl
@[simp] theorem expand_rdAlarms : Instr.rdAlarms.expand = .read 0x00#8 1#8 .w16 := rfl
@[simp] theorem expand_rdSerial : Instr.rdSerial.expand = .read 0x01#8 16#8 .w16 := rfl
@[simp] theorem expand_rdFwdvolF64 : Instr.rdFwdvolF64.expand = .read 0x18#8 1#8 .f64 := rfl
@[simp] theorem expand_rdFwdvolU32 : Instr.rdFwdvolU32.expand = .read 0x36#8 1#8 .u32 := rfl
@[simp] theorem expand_rdNetvolF64 : Instr.rdNetvolF64.expand = .read 0x42#8 1#8 .f64 := rfl
@[simp] theorem expand_rdNetvolS32 : Instr.rdNetvolS32.expand = .read 0x52#8 1#8 .s32 := rfl
@[simp] theorem expand_wrWeekday : (Instr.wrWeekday v).expand = .write 0x01#8 v := rfl
@[simp] theorem expand_wrDay : (Instr.wrDay v).expand = .write 0x02#8 v := rfl
@[simp] theorem expand_wrMonth : (Instr.wrMonth v).expand = .write 0x03#8 v := rfl
@[simp] theorem expand_wrYear : (Instr.wrYear v).expand = .write 0x04#8 v := rfl
@[simp] theorem expand_wrHours : (Instr.wrHours v).expand = .write 0x05#8 v := rfl
@[simp] theorem expand_wrMinutes : (Instr.wrMinutes v).expand = .write 0x06#8 v := rfl
@[simp] theorem expand_wrVolres : (Instr.wrVolres v).expand = .writeChk 0x07#8 v := rfl
@[simp] theorem expand_wrFlowres : (Instr.wrFlowres v).expand = .writeChk 0x08#8 v := rfl

end expand

/-- What a row stands for is its own expansion. -/
@[simp] theorem expandIn_instr (m : AccessorMap) (row : AccessorRow) (v : RegWord) :
    (row.instr v).expandIn m = row.instr v := by
  cases row <;> rfl

/-- Expanding twice is expanding once. -/
@[simp] theorem expandIn_expandIn (m : AccessorMap) (i : Instr) :
    (i.expandIn m).expandIn m = i.expandIn m := by
  cases i <;> first | rfl | exact expandIn_instr ..

/-- The name of an instruction is that of its expansion. -/
theorem namedIn_expandIn (m : AccessorMap) (i : Instr) : (i.expandIn m).namedIn m = i.namedIn m := by
  simp only [Instr.namedIn, expandIn_expandIn]

/-- Naming an instruction does not change what it expands to (R95, R180). -/
@[simp] theorem expandIn_namedIn (m : AccessorMap) (i : Instr) :
    (i.namedIn m).expandIn m = i.expandIn m := by
  simp only [Instr.namedIn]
  cases h : List.find? _ _ with
  | none => exact expandIn_expandIn m i
  | some j =>
    have hj := List.find?_some h
    exact of_decide_eq_true hj

/-- Naming twice is naming once. -/
@[simp] theorem namedIn_namedIn (m : AccessorMap) (i : Instr) :
    (i.namedIn m).namedIn m = i.namedIn m := by
  rw [← namedIn_expandIn, expandIn_namedIn, namedIn_expandIn]

theorem named_expand (i : Instr) : i.named.expand = i.expand := expandIn_namedIn accessorMap i

/-- In the model's table every documented accessor is the first name its expansion has. -/
theorem named_shown (n : ShownAccessor) (v : RegWord) : (n.instr v).named = n.instr v := by
  cases n <;>
    simp [ShownAccessor.instr, Instr.named, Instr.namedIn, Instr.expandIn, accessorMap, documentedRow,
      AccessorRow.instr, Instr.writeData, ShownAccessor.all]

/-- So is the command it expands to named by it. -/
theorem named_row (n : ShownAccessor) (v : RegWord) :
    ((accessorMap.shown n).instr v).named = n.instr v := by
  have h := namedIn_expandIn accessorMap (n.instr v)
  rw [show (n.instr v).namedIn accessorMap = n.instr v from named_shown n v] at h
  rw [← h]
  cases n <;> rfl

/-- Whatever decodes is a base command, under every table its own expansion. -/
theorem expandIn_of_decodeBase (m : AccessorMap) {w : CommandWord} {i : Instr}
    (h : decodeBase w = .ok i) : i.expandIn m = i := by
  rcases decodeBase_ok h with ⟨-, rfl⟩ | ⟨-, rfl⟩ | ⟨-, -, h⟩ | ⟨-, -, h⟩
  · rfl
  · rfl
  · obtain ⟨tag, -, -, -, -, -, rfl⟩ := decodeRead_ok h
    rfl
  · obtain ⟨-, -, -, ⟨-, rfl⟩ | ⟨-, rfl⟩⟩ := decodeWrite_ok h <;> rfl

/-- What a table has to do with decoding: the name given, nothing else (R180). -/
theorem decodeIn_ok_iff (m : AccessorMap) (w : CommandWord) (i : Instr) :
    decodeIn m w = .ok i ↔ ∃ j, decodeBase w = .ok j ∧ i = j.namedIn m := by
  unfold decodeIn
  cases decodeBase w <;> simp [eq_comm]

/-- The word of a `READ` row decodes to that `READ`, if it asks for 1 to 16 words, and is reserved if not (R88). -/
theorem decodeBase_word_read (a c : BitVec 8) (t : WidthTag) (v : RegWord) :
    decodeBase ((AccessorRow.read a c t).word v) =
      if readWordsOk c t then .ok (.read a c t) else .error (.readLength c t) := by
  obtain ⟨h1, h2, h3, h4, h5, h6, h7⟩ := packT_fields (functionId fcRead a) c t.byte 0#16 0#1
  obtain ⟨h8, h9⟩ := append_inj h2
  simp [AccessorRow.word, decodeBase, decodeRead, *]

theorem decodeBase_word_write (a : BitVec 8) (v : RegWord) :
    decodeBase ((AccessorRow.write a).word v) = .ok (.write a v) := by
  obtain ⟨h1, h2, h3, h4, h5, h6, h7⟩ := packT_fields (functionId fcWrite a) 1#8 0x10#8 v 0#1
  obtain ⟨h8, h9⟩ := append_inj h2
  simp [AccessorRow.word, decodeBase, decodeWrite, tagOfByte, show fcWrite ≠ fcRead by decide, *]

theorem decodeBase_word_writeChk (a : BitVec 8) (v : RegWord) :
    decodeBase ((AccessorRow.writeChk a).word v) = .ok (.writeChk a v) := by
  obtain ⟨h1, h2, h3, h4, h5, h6, h7⟩ := packT_fields (functionId fcWrite a) 1#8 0x10#8 v 1#1
  obtain ⟨h8, h9⟩ := append_inj h2
  simp [AccessorRow.word, decodeBase, decodeWrite, tagOfByte, show fcWrite ≠ fcRead by decide, *]

/-- The words of the writes in the form R95 writes them: six digits of address, `0110`, `vvvv`, four digits. -/
theorem word_write (a : BitVec 8) (v : RegWord) :
    (AccessorRow.write a).word v = (0x0006#16 ++ a ++ 0x0110#16) ++ v ++ 0x0000#16 :=
  packT_named v (by simp only [functionId, fcWrite]; ext i hi; simp; grind) rfl

theorem word_writeChk (a : BitVec 8) (v : RegWord) :
    (AccessorRow.writeChk a).word v = (0x0006#16 ++ a ++ 0x0110#16) ++ v ++ 0x8000#16 :=
  packT_named v (by simp only [functionId, fcWrite]; ext i hi; simp; grind) rfl

end Sys2Proof
end

