-- ==== Sys2Proof/Laws/Operands.lean ====
section
/-! SUPPORT. The numbers a window assembles to (R68, R113 to R115). -/

namespace Sys2Proof.Machine

/-- Two words, the first high, as an unsigned number. -/
theorem append_toNat (a b : RegWord) : (a ++ b).toNat = a.toNat * 2 ^ 16 + b.toNat := by
  rw [BitVec.toNat_append, ← Nat.shiftLeft_add_eq_or_of_lt b.isLt, Nat.shiftLeft_eq]

/-- Two words, the first high, as a signed number. -/
theorem append_toInt (a b : RegWord) : (a ++ b).toInt = a.toInt * 2 ^ 16 + b.toNat := by
  have h := append_toNat a b
  have hb := b.isLt
  have ha := a.isLt
  rw [BitVec.toInt_eq_toNat_cond, BitVec.toInt_eq_toNat_cond, h]
  split <;> split <;> push_cast <;> omega

/-- The byte order of R115 is the word order with the first register least significant (R68). -/
theorem floatPattern_eq (w : Window) : floatPattern w = w[3] ++ w[2] ++ w[1] ++ w[0] := by
  unfold floatPattern hi8 lo8
  generalize w[0] = a
  generalize w[1] = b
  generalize w[2] = c
  generalize w[3] = d
  refine BitVec.eq_of_getLsbD_eq fun i hi => ?_
  simp only [BitVec.getLsbD_append, BitVec.getLsbD_extractLsb']
  grind

/-- Four words, the last high, as a number. -/
theorem append4_toNat (a b c d : RegWord) :
    (d ++ c ++ b ++ a).toNat =
      d.toNat * 2 ^ 48 + c.toNat * 2 ^ 32 + b.toNat * 2 ^ 16 + a.toNat := by
  rw [BitVec.toNat_append, ← Nat.shiftLeft_add_eq_or_of_lt a.isLt, BitVec.toNat_append,
    ← Nat.shiftLeft_add_eq_or_of_lt b.isLt, BitVec.toNat_append,
    ← Nat.shiftLeft_add_eq_or_of_lt c.isLt]
  simp only [Nat.shiftLeft_eq]
  ring

end Sys2Proof.Machine
end

