-- ==== Sys2Proof/Laws/State.lean ====
section
/-! SUPPORT. What each update of the state does to each of its fields: one lemma per field per update. -/

namespace Sys2Proof.Machine

variable (s : State) (t : Transport)

@[simp] theorem State.called_fsm (cs : List Call) :
    (s.called cs).fsm = s.fsm := rfl
@[simp] theorem State.called_pending (cs : List Call) :
    (s.called cs).pending = s.pending := rfl
@[simp] theorem State.called_buffers (cs : List Call) :
    (s.called cs).buffers = s.buffers := rfl
@[simp] theorem State.called_ret (cs : List Call) :
    (s.called cs).ret = s.ret := rfl
@[simp] theorem State.called_transport (cs : List Call) :
    (s.called cs).transport = s.transport.called cs := rfl
@[simp] theorem State.called_commands (cs : List Call) :
    (s.called cs).commands = s.commands := rfl

@[simp] theorem State.finish_fsm (c : BitVec 8) :
    (s.finish c).fsm = .idle := rfl
@[simp] theorem State.finish_pending (c : BitVec 8) :
    (s.finish c).pending = { s.pending with lastErrorCode := c } := rfl
@[simp] theorem State.finish_buffers (c : BitVec 8) :
    (s.finish c).buffers = s.buffers := rfl
@[simp] theorem State.finish_ret (c : BitVec 8) :
    (s.finish c).ret = ⟨true, c, .absent⟩ := rfl
@[simp] theorem State.finish_transport (c : BitVec 8) :
    (s.finish c).transport = s.transport := rfl
@[simp] theorem State.finish_commands (c : BitVec 8) :
    (s.finish c).commands = s.commands := rfl

@[simp] theorem State.raise_fsm (c : BitVec 8) :
    (s.raise c).fsm = .idle := rfl
@[simp] theorem State.raise_pending (c : BitVec 8) :
    (s.raise c).pending = { s.pending with lastErrorCode := c } := rfl
@[simp] theorem State.raise_buffers (c : BitVec 8) :
    (s.raise c).buffers = s.buffers := rfl
@[simp] theorem State.raise_ret (c : BitVec 8) :
    (s.raise c).ret = ⟨true, c, .absent⟩ := rfl
@[simp] theorem State.raise_transport (c : BitVec 8) :
    (s.raise c).transport = s.transport := rfl
@[simp] theorem State.raise_commands (c : BitVec 8) :
    (s.raise c).commands = s.commands := rfl

@[simp] theorem State.reject_fsm (c : BitVec 8) :
    (s.reject c).fsm = s.fsm := rfl
@[simp] theorem State.reject_pending (c : BitVec 8) :
    (s.reject c).pending = s.pending := rfl
@[simp] theorem State.reject_buffers (c : BitVec 8) :
    (s.reject c).buffers = s.buffers := rfl
@[simp] theorem State.reject_ret (c : BitVec 8) :
    (s.reject c).ret = ⟨true, c, .absent⟩ := rfl
@[simp] theorem State.reject_transport (c : BitVec 8) :
    (s.reject c).transport = s.transport := rfl
@[simp] theorem State.reject_commands (c : BitVec 8) :
    (s.reject c).commands = s.commands := rfl

@[simp] theorem State.returnPair_fsm (v : RetValue) (c : BitVec 8) :
    (s.returnPair v c).fsm = s.fsm := rfl
@[simp] theorem State.returnPair_pending (v : RetValue) (c : BitVec 8) :
    (s.returnPair v c).pending = s.pending := rfl
@[simp] theorem State.returnPair_buffers (v : RetValue) (c : BitVec 8) :
    (s.returnPair v c).buffers = s.buffers := rfl
@[simp] theorem State.returnPair_ret (v : RetValue) (c : BitVec 8) :
    (s.returnPair v c).ret = ⟨true, c, v⟩ := rfl
@[simp] theorem State.returnPair_transport (v : RetValue) (c : BitVec 8) :
    (s.returnPair v c).transport = s.transport := rfl
@[simp] theorem State.returnPair_commands (v : RetValue) (c : BitVec 8) :
    (s.returnPair v c).commands = s.commands := rfl

@[simp] theorem State.record_fsm (f : BitVec 16) (n : BitVec 8) (w : WidthTag) :
    (s.record f n w).fsm = s.fsm := rfl
@[simp] theorem State.record_pending (f : BitVec 16) (n : BitVec 8) (w : WidthTag) :
    (s.record f n w).pending = ⟨n, w, f, s.pending.lastErrorCode⟩ := rfl
@[simp] theorem State.record_buffers (f : BitVec 16) (n : BitVec 8) (w : WidthTag) :
    (s.record f n w).buffers = s.buffers := rfl
@[simp] theorem State.record_ret (f : BitVec 16) (n : BitVec 8) (w : WidthTag) :
    (s.record f n w).ret = s.ret := rfl
@[simp] theorem State.record_transport (f : BitVec 16) (n : BitVec 8) (w : WidthTag) :
    (s.record f n w).transport = s.transport := rfl
@[simp] theorem State.record_commands (f : BitVec 16) (n : BitVec 8) (w : WidthTag) :
    (s.record f n w).commands = s.commands := rfl

@[simp] theorem Transport.called_starts (cs : List Call) : (t.called cs).starts = t.starts := rfl
@[simp] theorem Transport.called_rounds (cs : List Call) : (t.called cs).rounds = t.rounds := rfl
@[simp] theorem Transport.called_again (cs : List Call) : (t.called cs).again = t.again := rfl
@[simp] theorem Transport.called_startDraws (cs : List Call) : (t.called cs).startDraws = t.startDraws := rfl
@[simp] theorem Transport.called_roundDraws (cs : List Call) : (t.called cs).roundDraws = t.roundDraws := rfl
@[simp] theorem Transport.called_calls (cs : List Call) :
    (t.called cs).calls = t.calls ++ cs := rfl

@[simp] theorem Transport.called_called (cs ds : List Call) :
    (t.called cs).called ds = t.called (cs ++ ds) := by simp [Transport.called]

@[simp] theorem State.called_called (cs ds : List Call) :
    (s.called cs).called ds = s.called (cs ++ ds) := by simp [State.called]

end Sys2Proof.Machine
end

