-- ==== Sys2Proof/Laws/Ops.lean ====
section
/-! SUPPORT. What each shared operation can do, said once: the Transport's answers, the start of a request, one round of
the loop, filling a window, and the two kinds of step. -/

namespace Sys2Proof.Machine

/-! ### The command of an accessor's row (R180) -/

/-- Running what a row stands for is starting the row's command. -/
theorem exec_instr (row : AccessorRow) (v : RegWord) (s : State) :
    exec (row.instr v) s = .next (startRow row v s) := by
  cases row <;> rfl

/-- What an accessor of any table can do: its row's command, or nothing where the table does not have the name. -/
theorem execAccessor_cases (m : AccessorMap) (n : AccessorName) (v : RegWord) (s : State) :
    (∃ row, m.row n = some row ∧ execAccessor m n v s = some (exec (row.instr v) s)) ∨
    (m.row n = none ∧ execAccessor m n v s = none) := by
  unfold execAccessor
  cases h : m.row n with
  | none => exact .inr ⟨rfl, rfl⟩
  | some row => exact .inl ⟨row, rfl, by rw [exec_instr]; rfl⟩

/-- A documented accessor of the model's table does what its row stands for. -/
theorem exec_shown (n : ShownAccessor) (v : RegWord) (s : State) :
    exec (n.instr v) s = .next (startRow (accessorMap.shown n) v s) := by
  cases n <;> rfl

/-! ### The Transport's answers -/

theorem Transport.nextStart_listed {t : Transport} {b : Bool} {rest : List Bool}
    (h : t.starts = b :: rest) : t.nextStart = (b, { t with starts := rest }) := by
  simp [Transport.nextStart, h]

theorem Transport.nextRound_listed {t : Transport} {r : Round} {rest : List Round}
    (h : t.rounds = r :: rest) : t.nextRound = (r, { t with rounds := rest }) := by
  simp [Transport.nextRound, h]

theorem Transport.nextRound_again {t : Transport} {r : Round} {rest : List Round}
    (h : t.rounds = []) (h' : t.again = r :: rest) :
    t.nextRound = (r, { t with rounds := rest }) := by
  simp [Transport.nextRound, h, h']

@[simp] theorem Transport.nextStart_calls (t : Transport) : t.nextStart.2.calls = t.calls := by
  unfold Transport.nextStart; split <;> rfl

@[simp] theorem Transport.nextStart_rounds (t : Transport) : t.nextStart.2.rounds = t.rounds := by
  unfold Transport.nextStart; split <;> rfl

@[simp] theorem Transport.nextStart_again (t : Transport) : t.nextStart.2.again = t.again := by
  unfold Transport.nextStart; split <;> rfl

@[simp] theorem Transport.nextRound_calls (t : Transport) : t.nextRound.2.calls = t.calls := by
  unfold Transport.nextRound; split <;> rfl

@[simp] theorem Transport.nextRound_starts (t : Transport) : t.nextRound.2.starts = t.starts := by
  unfold Transport.nextRound; split <;> rfl

@[simp] theorem Transport.nextRound_again_field (t : Transport) : t.nextRound.2.again = t.again := by
  unfold Transport.nextRound; split <;> rfl

/-- Making calls does not change what the Transport will answer. -/
theorem Transport.nextRound_called (t : Transport) (cs : List Call) :
    (t.called cs).nextRound = (t.nextRound.1, t.nextRound.2.called cs) := by
  unfold Transport.nextRound; dsimp [Transport.called]; split <;> rfl

/-! ### Starting a request -/

/-- All a start can do: the request is under way, or the channel was busy (R166). -/
theorem State.start_cases (s : State) (call : Call) :
    (s.transport.nextStart.1 = true ∧
      s.start call =
        { s with
          fsm := .awaitResponse
          ret := { s.ret with valid := false }
          transport := s.transport.nextStart.2.called [call] }) ∨
    (s.transport.nextStart.1 = false ∧
      s.start call =
        ({ s with transport := s.transport.nextStart.2.called [call] } : State).raise
          errChannelBusy) := by
  cases h : s.transport.nextStart.1 <;> simp [State.start, h]

@[simp] theorem State.start_buffers (s : State) (call : Call) :
    (s.start call).buffers = s.buffers := by
  rcases s.start_cases call with ⟨-, h⟩ | ⟨-, h⟩ <;> simp [h]

@[simp] theorem State.start_commands (s : State) (call : Call) :
    (s.start call).commands = s.commands := by
  rcases s.start_cases call with ⟨-, h⟩ | ⟨-, h⟩ <;> simp [h]

@[simp] theorem State.start_calls (s : State) (call : Call) :
    (s.start call).transport.calls = s.transport.calls ++ [call] := by
  rcases s.start_cases call with ⟨-, h⟩ | ⟨-, h⟩ <;> simp [h]

/-- All a checked write can do (R163, R172). -/
theorem startCheckedWriting_cases (addr : BitVec 8) (v : RegWord) (s : State) :
    (8 < v.toNat ∧ startCheckedWriting addr v s = s.reject errResolutionIndex) ∨
    (v.toNat ≤ 8 ∧ startCheckedWriting addr v s = startWriting addr v s) := by
  unfold startCheckedWriting
  split
  · next h => exact .inl ⟨by simpa [BitVec.lt_def, resMax] using h, rfl⟩
  · next h => exact .inr ⟨by simpa [BitVec.lt_def, resMax] using h, rfl⟩

/-! ### One round of the polling loop -/

theorem pollRound_timeout {s : State} (h : s.transport.nextRound.1.awaiting = false) :
    pollRound s = .next
      (({ s with transport := s.transport.nextRound.2 } : State).called [.awaiting] |>.raise
        errTimeout) := by
  simp [pollRound, h]

theorem pollRound_waiting {s : State} (h : s.transport.nextRound.1.awaiting = true)
    (h' : s.transport.nextRound.1.poll = none) :
    pollRound s = .next
      (({ s with transport := s.transport.nextRound.2 } : State).called [.awaiting, .poll]) := by
  simp [pollRound, h, h']

theorem pollRound_response {s : State} {r : Response}
    (h : s.transport.nextRound.1.awaiting = true)
    (h' : s.transport.nextRound.1.poll = some r) :
    pollRound s = respond r
      (({ s with transport := s.transport.nextRound.2 } : State).called [.awaiting, .poll]) := by
  simp [pollRound, h, h']

theorem respond_exception {r : Response} (s : State) (h : r.hasException = true) :
    respond r s =
      .next ((s.called [.hasException, .exceptionCode]).raise r.exceptionCode) := by
  simp [respond, h]

theorem respond_success {r : Response} (s : State) (h : r.hasException = false) :
    respond r s = succeed r (s.called [.hasException]) := by
  simp [respond, h]

/-! ### Success -/

theorem fillWindow_some {n : Nat} {r : Response} (h : n ≤ r.registers.length) :
    fillWindow n r = some
      (Vector.ofFn fun i => if i.val < n then r.registers.getD i.val 0#16 else 0#16) := by
  simp [fillWindow, h]

theorem fillWindow_none {n : Nat} {r : Response} (h : r.registers.length < n) :
    fillWindow n r = none := by
  simp [fillWindow, h]

/-- The buffers the micro-operation of R111 leaves. -/
def assembled (p : PendingTransaction) (w : Window) (b : DecodedBuffers) : DecodedBuffers :=
  if p.registersToRead = 0#8 then b
  else match p.responseWidth with
    | .w16 => { zeroBuffers with int16 := fillInt16 p.registersToRead.toNat w }
    | .u32 => { zeroBuffers with uint32 := bigRegisterFirst w }
    | .s32 => { zeroBuffers with int32 := bigRegisterFirst w }
    | .f64 => { zeroBuffers with float64 := floatPattern w }

/-- Every micro-operation R111 chooses answers a next state that differs in the buffers only. -/
theorem exec_assembleOp (w : Window) (s : State) :
    exec (assembleOp s.pending w) s =
      .next { s with buffers := assembled s.pending w s.buffers } := by
  unfold assembleOp assembled
  split
  · rfl
  · cases s.pending.responseWidth <;> rfl

theorem succeed_eq {r : Response} {s : State} {w : Window}
    (h : fillWindow s.pending.registersToRead.toNat r = some w) :
    succeed r s = .next
      (({ s with buffers := assembled s.pending w s.buffers } : State).called
        (registerCalls s.pending.registersToRead.toNat) |>.finish errSuccess) := by
  simp only [succeed, h]
  have := exec_assembleOp w (s.called (registerCalls s.pending.registersToRead.toNat))
  simp only [State.called_pending] at this
  rw [this]
  rfl

/-! ### The two kinds of step -/

theorem step_idle {s : State} (h : s.fsm = .idle) : step s = acceptCommand s := by
  simp [step, h]

theorem step_await {s : State} (h : s.fsm = .awaitResponse) : step s = pollRound s := by
  simp [step, h]

theorem acceptCommand_ok {s : State} {w : CommandWord} {rest : List CommandWord} {i : Instr}
    (h : s.commands = w :: rest) (hd : decode w = .ok i) :
    acceptCommand s = exec i { s with commands := rest } := by
  simp [acceptCommand, h, hd]

theorem acceptCommand_reserved {s : State} {w : CommandWord} {rest : List CommandWord}
    {why : Reserved} (h : s.commands = w :: rest) (hd : decode w = .error why) :
    acceptCommand s = .refused (.reservedCommand why) := by
  simp [acceptCommand, h, hd]

/-- All a round of the loop can do: it times out, goes round again, ends with an exception, succeeds, or is
refused for a short response. -/
theorem pollRound_cases (s : State) :
    let t : State := { s with transport := s.transport.nextRound.2 }
    let r := s.transport.nextRound.1
    (r.awaiting = false ∧ pollRound s = .next ((t.called [.awaiting]).raise errTimeout)) ∨
    (r.awaiting = true ∧ r.poll = none ∧ pollRound s = .next (t.called [.awaiting, .poll])) ∨
    (∃ q, r.awaiting = true ∧ r.poll = some q ∧ q.hasException = true ∧
      pollRound s = .next
        ((t.called [.awaiting, .poll, .hasException, .exceptionCode]).raise q.exceptionCode)) ∨
    (∃ q w, r.awaiting = true ∧ r.poll = some q ∧ q.hasException = false ∧
      fillWindow s.pending.registersToRead.toNat q = some w ∧
      pollRound s = .next
        ((({ t with buffers := assembled s.pending w s.buffers } : State).called
          ([.awaiting, .poll, .hasException] ++
            registerCalls s.pending.registersToRead.toNat)).finish errSuccess)) ∨
    (∃ q, r.awaiting = true ∧ r.poll = some q ∧ q.hasException = false ∧
      q.registers.length < s.pending.registersToRead.toNat ∧
      pollRound s = .refused .shortResponse) := by
  intro t r
  cases ha : r.awaiting with
  | false => exact .inl ⟨rfl, pollRound_timeout ha⟩
  | true =>
    refine .inr ?_
    cases hp : r.poll with
    | none => exact .inl ⟨rfl, rfl, pollRound_waiting ha hp⟩
    | some q =>
      refine .inr ?_
      have hr := pollRound_response ha hp
      cases hx : q.hasException with
      | true =>
        refine .inl ⟨q, rfl, rfl, hx, ?_⟩
        rw [hr, respond_exception _ hx, State.called_called]
        rfl
      | false =>
        refine .inr ?_
        rw [hr, respond_success _ hx, State.called_called]
        by_cases hn : s.pending.registersToRead.toNat ≤ q.registers.length
        · refine .inl ⟨q, _, rfl, rfl, hx, fillWindow_some hn, ?_⟩
          rw [succeed_eq (s := t.called _) (fillWindow_some hn)]
          simp [State.called, Transport.called, State.finish, t]
        · refine .inr ⟨q, rfl, rfl, hx, by omega, ?_⟩
          have h0 := fillWindow_none (n := s.pending.registersToRead.toNat) (r := q) (by omega)
          simp [succeed, h0]

end Sys2Proof.Machine
end

