-- ==== Sys2Proof/Laws/PerInstr.lean ====
section
/-! SUPPORT. Per instruction: under every accessor table a named accessor is encoded in the very word its expansion is
(R95, R180), and every other instruction is its own expansion. -/

namespace Sys2Proof.Laws.SameWord

/-- Under every table the code of an instruction is that of what it expands to. -/
def Statement (i : Instr) : Prop := ∀ m : AccessorMap, encodeIn m (i.expandIn m) = encodeIn m i

/-- What a row stands for has the row's word, under every table. -/
theorem rowInstr (m : AccessorMap) (row : AccessorRow) (v : RegWord) :
    encodeIn m (row.instr v) = .command (row.word v) := by
  cases row <;> rfl

theorem read (a : BitVec 8) (c : BitVec 8) (w : WidthTag) : Statement (.read a c w) := fun _ => rfl

theorem write (a : BitVec 8) (v : RegWord) : Statement (.write a v) := fun _ => rfl

theorem writeChk (a : BitVec 8) (v : RegWord) : Statement (.writeChk a v) := fun _ => rfl

theorem compress16 (v : F64) : Statement (.compress16 v) := fun _ => rfl

theorem compress32 (v : F64) : Statement (.compress32 v) := fun _ => rfl

theorem assemble16 (w : Window) : Statement (.assemble16 w) := fun _ => rfl

theorem assembleU32 (w : Window) : Statement (.assembleU32 w) := fun _ => rfl

theorem assembleS32 (w : Window) : Statement (.assembleS32 w) := fun _ => rfl

theorem assembleF64 (w : Window) : Statement (.assembleF64 w) := fun _ => rfl

theorem assembleNone : Statement .assembleNone := fun _ => rfl

theorem rdAlarms : Statement .rdAlarms := fun m => rowInstr m (m.shown .rdAlarms) 0#16

theorem rdSerial : Statement .rdSerial := fun m => rowInstr m (m.shown .rdSerial) 0#16

theorem rdFwdvolF64 : Statement .rdFwdvolF64 := fun m => rowInstr m (m.shown .rdFwdvolF64) 0#16

theorem rdFwdvolU32 : Statement .rdFwdvolU32 := fun m => rowInstr m (m.shown .rdFwdvolU32) 0#16

theorem rdNetvolF64 : Statement .rdNetvolF64 := fun m => rowInstr m (m.shown .rdNetvolF64) 0#16

theorem rdNetvolS32 : Statement .rdNetvolS32 := fun m => rowInstr m (m.shown .rdNetvolS32) 0#16

theorem wrWeekday (v : RegWord) : Statement (.wrWeekday v) := fun m => rowInstr m (m.shown .wrWeekday) v

theorem wrDay (v : RegWord) : Statement (.wrDay v) := fun m => rowInstr m (m.shown .wrDay) v

theorem wrMonth (v : RegWord) : Statement (.wrMonth v) := fun m => rowInstr m (m.shown .wrMonth) v

theorem wrYear (v : RegWord) : Statement (.wrYear v) := fun m => rowInstr m (m.shown .wrYear) v

theorem wrHours (v : RegWord) : Statement (.wrHours v) := fun m => rowInstr m (m.shown .wrHours) v

theorem wrMinutes (v : RegWord) : Statement (.wrMinutes v) := fun m => rowInstr m (m.shown .wrMinutes) v

theorem wrVolres (v : RegWord) : Statement (.wrVolres v) := fun m => rowInstr m (m.shown .wrVolres) v

theorem wrFlowres (v : RegWord) : Statement (.wrFlowres v) := fun m => rowInstr m (m.shown .wrFlowres) v

end Sys2Proof.Laws.SameWord
end

