-- ==== Sys2Proof/Laws/Run.lean ====
section
/-! SUPPORT. Several steps: the first one, and steps in two parts. -/

namespace Sys2Proof.Machine

@[simp] theorem run_zero (s : State) : run 0 s = .next s := rfl

theorem run_succ_next {s t : State} (k : Nat) (h : step s = .next t) : run (k + 1) s = run k t := by
  have h' : Sys2Proof.core.step s = .next t := h
  simp only [run, Host.Core.run, h']
  rfl

theorem run_succ_refused {s : State} {q : Refusal} (k : Nat) (h : step s = .refused q) :
    run (k + 1) s = .refused q := by
  have h' : Sys2Proof.core.step s = .refused q := h
  simp only [run, Host.Core.run, h']
  rfl

theorem run_one (s : State) : run 1 s = step s := by
  cases h : step s with
  | next t => exact run_succ_next 0 h
  | refused q => exact run_succ_refused 0 h
  | fault f => cases f

theorem run_add_next {s t : State} {j : Nat} (k : Nat) (h : run j s = .next t) :
    run (j + k) s = run k t := by
  induction j generalizing s with
  | zero => cases h; rw [Nat.zero_add]
  | succ j ih =>
    rw [Nat.succ_add]
    cases hs : step s with
    | next u =>
      rw [run_succ_next _ hs] at h ⊢
      exact ih h
    | refused q => rw [run_succ_refused _ hs] at h; cases h
    | fault f => cases f

/-- What holds of every listed and every repeated round holds of the next one, and stays so. -/
theorem Transport.nextRound_of_listed {P : Round → Prop} {t : Transport} (ha : t.again ≠ [])
    (h : ∀ r, r ∈ t.rounds ∨ r ∈ t.again → P r) :
    P t.nextRound.1 ∧ ∀ r, r ∈ t.nextRound.2.rounds ∨ r ∈ t.nextRound.2.again → P r := by
  rw [Transport.nextRound_again_field]
  unfold Transport.nextRound
  split
  · next hr =>
    exact ⟨h _ (.inl (by simp [hr])), fun q hq =>
      h q (hq.imp_left fun hq => by rw [hr]; exact .tail _ hq)⟩
  · next hr =>
    exact ⟨h _ (.inr (by simp [hr])), fun q hq =>
      h q (.inr (hq.elim (fun hq => by rw [hr]; exact .tail _ hq) id))⟩
  · next hr => exact absurd hr ha

/-- What holds of every listed and every repeated round holds of every round to come, if some round is repeated. -/
theorem Transport.upcoming_of_listed {P : Round → Prop} {t : Transport} (ha : t.again ≠ [])
    (h : ∀ r, r ∈ t.rounds ∨ r ∈ t.again → P r) (k : Nat) : P (t.upcoming k) := by
  induction k generalizing t with
  | zero => exact (nextRound_of_listed ha h).1
  | succ k ih => exact ih (by simpa using ha) (nextRound_of_listed ha h).2

end Sys2Proof.Machine
end

