-- ==== Sys2Proof/Tests/Slice0.lean ====
section
/-! SUPPORT. Tests. Every expected result is taken from 95_test_vectors.md (its row is named) or written out from the
spec's encoding; the last part shows, for every statement with hypotheses, operands and a state that meet them. -/

namespace Sys2Proof.Tests

open Sys2Proof.Machine

/-! ### Small states -/

/-- A window of the given words, zeros after them. -/
def win (ws : List RegWord) : Window := Vector.ofFn fun i => ws.getD i.val 0#16

/-- The start state of section 2.8: what a successful `RD.ALARMS` returning 0x0007 leaves. -/
def alarm : State where
  fsm := .idle
  pending := ⟨1#8, .w16, 0x0400#16, 0#8⟩
  buffers := ⟨win [7#16], 0#32, 0#32, 0#64⟩
  ret := ⟨true, 0#8, .absent⟩
  transport := ⟨[], [], [], 0, 0, []⟩
  commands := []

/-- `alarm` with commands to come and a Transport script. -/
def script (cs : List CommandWord) (starts : List Bool) (rounds : List Round) : State :=
  { alarm with commands := cs, transport := ⟨starts, rounds, [], 0, 0, []⟩ }

/-- Awaiting the response of a request, with the rounds to come. -/
def waiting (words : BitVec 8) (tag : WidthTag) (fid : BitVec 16) (rounds : List Round) : State :=
  { alarm with
    fsm := .awaitResponse
    pending := ⟨words, tag, fid, 0#8⟩
    ret := ⟨false, 0#8, .absent⟩
    transport := ⟨[], rounds, [], 0, 0, []⟩ }

/-- A response without exception. -/
def resp (ws : List RegWord) : Response := ⟨false, 0#8, ws⟩
/-- A response with an exception code. -/
def exc (code : BitVec 8) : Response := ⟨true, code, []⟩
/-- A round in which a response arrives. -/
def arrives (r : Response) : Round := ⟨true, some r⟩
/-- A round in which none has arrived yet. -/
def notYet : Round := ⟨true, none⟩
/-- A round in which the deadline has passed. -/
def late : Round := ⟨false, none⟩

/-- The next state, where there is one. -/
def after (o : Host.Outcome State Fault Refusal) : Option State :=
  match o with
  | .next t => some t
  | _ => none

/-- The base commands, one instruction each. -/
def baseEach : List Instr :=
  [.read 0x36#8 8#8 .u32, .write 0x09#8 5#16, .writeChk 0x09#8 5#16,
    .compress16 0x4028AE147AE147AE#64, .compress32 0xC0934A3D70A3D70A#64]

/-- The micro-operations. -/
def microEach : List Instr :=
  [.assemble16 (win [7#16]), .assembleU32 (win [1#16, 2#16]), .assembleS32 (win [1#16, 2#16]),
    .assembleF64 (win [1#16, 2#16, 3#16, 4#16]), .assembleNone]

/-- The named reads. -/
def readEach : List Instr :=
  [.rdAlarms, .rdSerial, .rdFwdvolF64, .rdFwdvolU32, .rdNetvolF64, .rdNetvolS32]

/-- The named writes. -/
def writeEach : List Instr :=
  [.wrWeekday 3#16, .wrDay 15#16, .wrMonth 11#16, .wrYear 2026#16, .wrHours 23#16,
    .wrMinutes 59#16, .wrVolres 9#16, .wrFlowres 8#16]

/-- One instruction per constructor. -/
def oneEach : List Instr := baseEach ++ microEach ++ readEach ++ writeEach

/-! ### Well-formedness: every check refuses a term -/

theorem test_illformed_read_of_nothing : (Instr.read 0x36#8 0#8 .u32).wellFormed = false := by decide
theorem test_illformed_read_too_long : (Instr.read 0x36#8 9#8 .u32).wellFormed = false := by decide
theorem test_illformed_read_too_long_f64 : (Instr.read 0x18#8 5#8 .f64).wellFormed = false := by decide
theorem test_illformed_read_with_a_name : (Instr.read 0x00#8 1#8 .w16).wellFormed = false := by decide
theorem test_illformed_write_with_a_name : (Instr.write 0x01#8 3#16).wellFormed = false := by decide
theorem test_illformed_writeChk_with_a_name :
    (Instr.writeChk 0x07#8 3#16).wellFormed = false := by decide

/-! ### Decoding: the words of section 2.1, and the selectors of R96 -/

theorem test_decode_read : decode 0x000436082000000000#72 = .ok (.read 0x36#8 8#8 .u32) := by decide
theorem test_decode_write : decode 0x000609011000050000#72 = .ok (.write 0x09#8 5#16) := by decide
theorem test_decode_writeChk : decode 0x000609011000058000#72 = .ok (.writeChk 0x09#8 5#16) := by
  decide
theorem test_decode_compress16 :
    decode 0x014028AE147AE147AE#72 = .ok (.compress16 0x4028AE147AE147AE#64) := by decide
theorem test_decode_compress32 :
    decode 0x02C0934A3D70A3D70A#72 = .ok (.compress32 0xC0934A3D70A3D70A#64) := by decide
theorem test_decode_assemble16 (w : Window) : decodeSelector 0x110#9 w = .ok (.assemble16 w) := rfl
theorem test_decode_assembleU32 (w : Window) : decodeSelector 0x120#9 w = .ok (.assembleU32 w) := rfl
theorem test_decode_assembleS32 (w : Window) : decodeSelector 0x1E0#9 w = .ok (.assembleS32 w) := rfl
theorem test_decode_assembleF64 (w : Window) : decodeSelector 0x1C0#9 w = .ok (.assembleF64 w) := rfl
theorem test_decode_assembleNone (w : Window) : decodeSelector 0x000#9 w = .ok .assembleNone := rfl
theorem test_decode_assembleNone_any_tag (w : Window) :
    decodeSelector 0x0E0#9 w = .ok .assembleNone := rfl
theorem test_decode_rdAlarms : decode 0x000400011000000000#72 = .ok .rdAlarms := by decide
theorem test_decode_rdSerial : decode 0x000401101000000000#72 = .ok .rdSerial := by decide
theorem test_decode_rdFwdvolF64 : decode 0x00041801C000000000#72 = .ok .rdFwdvolF64 := by decide
theorem test_decode_rdFwdvolU32 : decode 0x000436012000000000#72 = .ok .rdFwdvolU32 := by decide
theorem test_decode_rdNetvolF64 : decode 0x00044201C000000000#72 = .ok .rdNetvolF64 := by decide
theorem test_decode_rdNetvolS32 : decode 0x00045201E000000000#72 = .ok .rdNetvolS32 := by decide
theorem test_decode_wrWeekday : decode 0x000601011000030000#72 = .ok (.wrWeekday 3#16) := by decide
theorem test_decode_wrDay : decode 0x0006020110000F0000#72 = .ok (.wrDay 15#16) := by decide
theorem test_decode_wrMonth : decode 0x0006030110000B0000#72 = .ok (.wrMonth 11#16) := by decide
theorem test_decode_wrYear : decode 0x000604011007EA0000#72 = .ok (.wrYear 2026#16) := by decide
theorem test_decode_wrHours : decode 0x000605011000170000#72 = .ok (.wrHours 23#16) := by decide
theorem test_decode_wrMinutes : decode 0x0006060110003B0000#72 = .ok (.wrMinutes 59#16) := by decide
theorem test_decode_wrVolres : decode 0x000607011000098000#72 = .ok (.wrVolres 9#16) := by decide
theorem test_decode_wrFlowres : decode 0x000608011000088000#72 = .ok (.wrFlowres 8#16) := by decide

/-- V-E-18 to V-E-26, and a tag no selector may carry. -/
theorem test_decode_reserved :
    decode 0x000436092000000000#72 = .error (.readLength 9#8 .u32) ∧
    decode 0x000400001000000000#72 = .error (.readLength 0#8 .w16) ∧
    decode 0x000400014000000000#72 = .error (.illegalTag 0x40#8) ∧
    decode 0x00040001F000000000#72 = .error (.illegalTag 0xF0#8) ∧
    decode 0x000300011000000000#72 = .error (.unknownFunctionCode 0x03#8) ∧
    decode 0x030000000000000000#72 = .error (.unknownUnit 0x03#8) ∧
    decode 0x000601011000030001#72 = .error .zeroField ∧
    decode 0x000601012000030000#72 = .error .writeFixedFields ∧
    decode 0x000400011000008000#72 = .error .readExtraFields ∧
    decodeSelector 0x140#9 (win []) = .error (.illegalTag 0x40#8) := by decide

theorem test_table_words :
    decodeTableWord 72 0x000401101000000000 = some .rdSerial ∧
    decodeTableWord 16 0x1E0 = some (.assembleS32 (Vector.replicate 16 0#16)) := by decide

/-! ### The compress commands (sections 2.6 and 2.7) -/

/-- V-C16-7, a tie. -/
theorem test_compress16_tie :
    (after (exec (.compress16 0x3FC0000000000000#64) alarm)).map (·.ret) =
      some ⟨true, 0#8, .s16 13#16⟩ := by decide +kernel
/-- V-T-21. -/
theorem test_compress16_overflow :
    (after (exec (.compress16 0x408F400000000000#64) alarm)).map (·.ret) =
      some ⟨true, 6#8, .s16 32767#16⟩ := by decide +kernel
/-- V-C32-14, a tie. -/
theorem test_compress32_tie :
    (after (exec (.compress32 0x40FE240C8F5C28F6#64) alarm)).map (·.ret) =
      some ⟨true, 0#8, .s32 12345679#32⟩ := by decide +kernel
/-- V-C32-28, the largest underflowing value. -/
theorem test_compress32_underflow :
    (after (exec (.compress32 0xC1747AE147AE147C#64) alarm)).map (·.ret) =
      some ⟨true, 9#8, .s32 0x80000000#32⟩ := by decide +kernel
/-- The six examples at the end of section 2.7, with 2.0 as 2^1075 units. -/
theorem test_disagree :
    disagree 5#32 (.fin false (2 ^ 1075)) = false ∧ disagree (-5#32) (.fin false (2 ^ 1075)) = true ∧
    disagree 5#32 (.fin true (2 ^ 1075)) = true ∧ disagree 0#32 (.fin true (2 ^ 1075)) = false ∧
    disagree (-5#32) (.fin true 0) = false ∧ disagree 0#32 (.fin false 0) = false := by
  decide +kernel

/-! ### The ASSEMBLE micro-operations (sections 2.2 to 2.5) -/

/-- V-A16-6: the second word is beyond `registersToRead`. -/
theorem test_assemble16_limit :
    (after (exec (.assemble16 (win [5#16, 0xABCD#16])) alarm)).map (·.buffers) =
      some ⟨win [5#16], 0#32, 0#32, 0#64⟩ := by decide
/-- V-A16-8. -/
theorem test_assemble16_three :
    (after (exec (.assemble16 (win [0x0001#16, 0x8001#16, 0x7FFE#16]))
      (waiting 3#8 .w16 0x0400#16 []))).map (fun t => (t.buffers.int16[1].toInt, t.buffers.int16[2])) =
      some (-32767, 32766#16) := by decide
/-- V-A32-9: bit 15 of the second word is not a sign. -/
theorem test_assembleU32_low_word :
    (after (exec (.assembleU32 (win [0#16, 0x8000#16])) alarm)).map (·.buffers) =
      some ⟨win [], 0#32, 32768#32, 0#64⟩ := by decide
/-- V-A32-10: the first word is high. -/
theorem test_assembleU32_order :
    (after (exec (.assembleU32 (win [2#16, 1#16])) alarm)).map (·.buffers.uint32) =
      some 131073#32 := by decide
/-- V-A32-2. -/
theorem test_assembleS32_negative :
    (after (exec (.assembleS32 (win [0xFFFF#16, 0xFFFE#16])) alarm)).map (·.buffers.int32.toInt) =
      some (-2) := by decide
/-- V-A32-9 at tag -32. -/
theorem test_assembleS32_low_word :
    (after (exec (.assembleS32 (win [0#16, 0x8000#16])) alarm)).map (·.buffers) =
      some ⟨win [], 32768#32, 0#32, 0#64⟩ := by decide
/-- V-F64-9: every byte in its place. -/
theorem test_assembleF64_bytes :
    (after (exec (.assembleF64 (win [0x0201#16, 0x0403#16, 0x0605#16, 0x0807#16])) alarm)).map
      (·.buffers.float64) = some 0x0807060504030201#64 := by decide
/-- V-F64-12: the first register is the low word. -/
theorem test_assembleF64_first_low :
    (after (exec (.assembleF64 (win [0x3FF0#16])) alarm)).map (·.buffers) =
      some ⟨win [], 0#32, 0#32, 0x0000000000003FF0#64⟩ := by decide
/-- V-AN-1, on the buffers of `alarm`. -/
theorem test_assembleNone_keeps : after (exec .assembleNone alarm) = some alarm := by decide

/-! ### Starting a transaction (section 2.8) -/

/-- V-T-1, its start. -/
theorem test_read_starts :
    (after (exec (.read 0x36#8 1#8 .u32) (script [] [true] []))).map
        (fun t => (t.fsm, t.pending, t.transport.calls)) =
      some (.awaitResponse, ⟨2#8, .u32, 0x0436#16, 0#8⟩,
        [.startRead Config.slaveAddress 0x0036#16 2#8]) := rfl
/-- V-T-2. -/
theorem test_read_busy :
    (after (exec (.read 0x36#8 1#8 .u32) (script [] [false] []))).map
        (fun t => (t.fsm, t.pending, t.buffers, t.ret)) =
      some (.idle, ⟨2#8, .u32, 0x0436#16, 3#8⟩, alarm.buffers, ⟨true, 3#8, .absent⟩) := rfl
/-- V-T-10, its start. -/
theorem test_write_starts :
    (after (exec (.write 0x02#8 15#16) (script [] [true] []))).map
        (fun t => (t.fsm, t.pending, t.transport.calls)) =
      some (.awaitResponse, ⟨0#8, .w16, 0x0602#16, 0#8⟩,
        [.startWrite Config.slaveAddress 0x0002#16 0x000F#16]) := rfl
/-- V-T-11. -/
theorem test_write_busy :
    (after (exec (.write 0x02#8 15#16) (script [] [false] []))).map (fun t => (t.fsm, t.pending)) =
      some (.idle, ⟨0#8, .w16, 0x0602#16, 3#8⟩) := rfl
/-- V-T-14: nothing changes but the return port. -/
theorem test_writeChk_rejects :
    after (exec (.writeChk 0x07#8 9#16) alarm) =
      some { alarm with ret := ⟨true, 10#8, .absent⟩ } := by decide
/-- V-T-16, its start: 8 is legal. -/
theorem test_writeChk_passes :
    (after (exec (.writeChk 0x07#8 8#16) (script [] [true] []))).map
        (fun t => (t.fsm, t.transport.calls)) =
      some (.awaitResponse, [.startWrite Config.slaveAddress 0x0007#16 0x0008#16]) := rfl

/-- The call a named accessor makes (V-E-1 to V-E-14). -/
def callOf (i : Instr) : Option (List Call) :=
  (after (exec i (script [] [true] []))).map (·.transport.calls)

theorem test_rdAlarms : callOf .rdAlarms = some [.startRead Config.slaveAddress 0x0000#16 1#8] := rfl
theorem test_rdSerial : callOf .rdSerial = some [.startRead Config.slaveAddress 0x0001#16 16#8] := rfl
theorem test_rdFwdvolF64 :
    callOf .rdFwdvolF64 = some [.startRead Config.slaveAddress 0x0018#16 4#8] := rfl
theorem test_rdFwdvolU32 :
    callOf .rdFwdvolU32 = some [.startRead Config.slaveAddress 0x0036#16 2#8] := rfl
theorem test_rdNetvolF64 :
    callOf .rdNetvolF64 = some [.startRead Config.slaveAddress 0x0042#16 4#8] := rfl
theorem test_rdNetvolS32 :
    callOf .rdNetvolS32 = some [.startRead Config.slaveAddress 0x0052#16 2#8] := rfl
theorem test_wrWeekday :
    callOf (.wrWeekday 3#16) = some [.startWrite Config.slaveAddress 0x0001#16 3#16] := rfl
theorem test_wrDay : callOf (.wrDay 15#16) = some [.startWrite Config.slaveAddress 0x0002#16 15#16] := rfl
theorem test_wrMonth :
    callOf (.wrMonth 11#16) = some [.startWrite Config.slaveAddress 0x0003#16 11#16] := rfl
theorem test_wrYear :
    callOf (.wrYear 2026#16) = some [.startWrite Config.slaveAddress 0x0004#16 0x07EA#16] := rfl
theorem test_wrHours :
    callOf (.wrHours 23#16) = some [.startWrite Config.slaveAddress 0x0005#16 23#16] := rfl
theorem test_wrMinutes :
    callOf (.wrMinutes 59#16) = some [.startWrite Config.slaveAddress 0x0006#16 59#16] := rfl
theorem test_wrVolres : callOf (.wrVolres 9#16) = some [] := rfl
theorem test_wrFlowres :
    callOf (.wrFlowres 8#16) = some [.startWrite Config.slaveAddress 0x0008#16 8#16] := rfl

/-! ### The polling loop (section 2.8), one round each -/

/-- V-T-1, its last round. -/
theorem test_round_success :
    (after (step (waiting 2#8 .u32 0x0436#16 [arrives (resp [1#16, 0x86A0#16])]))).map
        (fun t => (t.fsm, t.buffers, t.ret.code)) =
      some (.idle, ⟨win [], 0#32, 100000#32, 0#64⟩, 0#8) := by decide
/-- V-T-10, its last round: a write decodes nothing. -/
theorem test_round_write :
    (after (step (waiting 0#8 .w16 0x0602#16 [arrives (resp [])]))).map
        (fun t => (t.fsm, t.buffers, t.transport.calls)) =
      some (.idle, alarm.buffers, [.awaiting, .poll, .hasException]) := by decide
/-- V-T-8: a code outside the table is copied. -/
theorem test_round_exception :
    (after (step (waiting 2#8 .u32 0x0436#16 [arrives (exc 11#8)]))).map
        (fun t => (t.pending, t.buffers, t.ret.code, t.transport.calls)) =
      some (⟨2#8, .u32, 0x0436#16, 11#8⟩, alarm.buffers, 11#8,
        [.awaiting, .poll, .hasException, .exceptionCode]) := by decide
/-- V-T-4: no poll at all. -/
theorem test_round_timeout :
    (after (step (waiting 2#8 .u32 0x0436#16 [late]))).map
        (fun t => (t.fsm, t.ret.code, t.transport.calls)) =
      some (.idle, 5#8, [.awaiting]) := by decide
/-- V-T-3, its first round. -/
theorem test_round_waits :
    (after (step (waiting 2#8 .u32 0x0436#16 [notYet, late]))).map
        (fun t => (t.fsm, t.transport.rounds, t.ret.valid)) =
      some (.awaitResponse, [late], false) := by decide

/-! ### The first step after reset -/

theorem test_reset_runs_command :
    step (State.reset.withFetchWord 72 0x00045201E000000000) =
      exec .rdNetvolS32 State.reset := rfl
theorem test_reset_runs_selector :
    (after (step (State.reset.withFetchWord 16 0x1E0))).map
        (fun t => (t.fsm, t.pending.responseWidth, t.buffers)) =
      some (.idle, .s32, ⟨Vector.replicate 16 0#16, 0#32, 0#32, 0#64⟩) := by decide
theorem test_reset_runs_none :
    (after (step (State.reset.withFetchWord 16 0x000))).map (fun t => (t.fsm, t.ret.code)) =
      some (.idle, 0#8) := by decide

/-! ### Witnesses: the hypotheses of each statement can be met -/

/-- Every constructor is well-formed at some operands. -/
theorem test_witness_DecodeOfEncode : oneEach.all Instr.wellFormed = true := by decide

theorem test_witness_EncodeOfDecode :
    ∃ w i, decode w = .ok i := ⟨0x000436082000000000#72, .read 0x36#8 8#8 .u32, by decide⟩

theorem test_witness_DecodeUpToName :
    (Instr.read 0x00#8 1#8 .w16).operandsOk = true ∧ (Instr.write 0x01#8 3#16).operandsOk = true ∧
    (Instr.writeChk 0x07#8 9#16).operandsOk = true ∧ Instr.rdAlarms.operandsOk = true ∧
    (Instr.read 0x36#8 8#8 .u32).operandsOk = true := by decide

/-- A table that pairs weekday and day the other way round (what D11 allows for), has an undocumented read, and an
undocumented row that no legal word stands for. -/
def otherTable : AccessorMap where
  shown n := match n with
    | .wrWeekday => .write 0x02#8
    | .wrDay => .write 0x01#8
    | n => documentedRow n
  others := [("TEMPERATURE", .read 0x60#8 1#8 .f64), ("TOO.LONG", .read 0x60#8 9#8 .f64)]

/-- A word that table accepts under another name, and one both refuse. -/
theorem test_witness_DecodeUpToName_table :
    decodeIn otherTable 0x000601011000030000#72 = .ok (.wrDay 3#16) ∧
    decode 0x000601011000030000#72 = .ok (.wrWeekday 3#16) ∧
    decodeIn otherTable 0x000436092000000000#72 = .error (.readLength 9#8 .u32) := by decide

/-- Each shape of row, a name the table does not have, and words reserved and not. -/
theorem test_witness_AccessorsDoWhatTheyExpandTo :
    otherTable.row (.other "TEMPERATURE") = some (.read 0x60#8 1#8 .f64) ∧
    otherTable.row (.shown .wrDay) = some (.write 0x01#8) ∧
    otherTable.row (.shown .wrVolres) = some (.writeChk 0x07#8) ∧
    otherTable.row (.other "PRESSURE") = none ∧
    otherTable.word (.other "TEMPERATURE") 0#16 = some 0x00046001C000000000#72 ∧
    otherTable.word (.other "TOO.LONG") 0#16 = some 0x00046009C000000000#72 ∧
    ¬Claims.ReservedWord 0x00046001C000000000#72 ∧ Claims.ReservedWord 0x00046009C000000000#72 ∧
    (script [0x00046001C000000000#72] [] []).fsm = .idle ∧
    (script [0x00046001C000000000#72] [] []).commands = [0x00046001C000000000#72] := by
  unfold Claims.ReservedWord
  dsimp only
  refine ⟨?_, ?_, ?_, ?_, ?_, ?_, ?_, ?_, rfl, rfl⟩ <;> decide

/-- A word for each case of R89, a to g, and one that is not reserved. -/
theorem test_witness_ReservedWordsAreRefused :
    (script [0x030000000000000000#72] [] []).fsm = .idle ∧
    (script [0x030000000000000000#72] [] []).commands = [0x030000000000000000#72] ∧
    Claims.ReservedWord 0x030000000000000000#72 ∧ Claims.ReservedWord 0x000300011000000000#72 ∧
    Claims.ReservedWord 0x000400014000000000#72 ∧ Claims.ReservedWord 0x000436092000000000#72 ∧
    Claims.ReservedWord 0x000400001000000000#72 ∧ Claims.ReservedWord 0x000400011000008000#72 ∧
    Claims.ReservedWord 0x000400011000010000#72 ∧ Claims.ReservedWord 0x000601012000030000#72 ∧
    Claims.ReservedWord 0x000601021000030000#72 ∧ Claims.ReservedWord 0x000601011000030001#72 ∧
    ¬Claims.ReservedWord 0x000436082000000000#72 := by
  unfold Claims.ReservedWord
  dsimp only
  refine ⟨rfl, rfl, ?_, ?_, ?_, ?_, ?_, ?_, ?_, ?_, ?_, ?_, ?_⟩ <;> decide

theorem test_witness_StepRunsDecodedCommand :
    ∃ s : State, ∃ w rest i, s.fsm = .idle ∧ s.commands = w :: rest ∧ decode w = .ok i :=
  ⟨script [0x000400011000000000#72] [] [], 0x000400011000000000#72, [], .rdAlarms, rfl, rfl,
    by decide⟩

/-- The largest read, a write, and each wide tag. -/
theorem test_witness_StepRunsMicroOperation :
    ∀ p ∈ [(16#8, WidthTag.w16), (0#8, .w16), (2#8, .u32), (2#8, .s32), (4#8, .f64)],
      ∃ r rs w, (waiting p.1 p.2 0#16 [arrives (resp (List.replicate 16 5#16))]).fsm = .awaitResponse ∧
        (waiting p.1 p.2 0#16 [arrives (resp (List.replicate 16 5#16))]).transport.rounds =
          ⟨true, some r⟩ :: rs ∧
        r.hasException = false ∧ p.1.toNat ≤ r.registers.length ∧
        (∀ j : Fin 16, w[j] = if j.val < p.1.toNat then r.registers.getD j.val 0#16 else 0#16) ∧
        ∃ t, exec (if p.1 = 0#8 then .assembleNone
          else match p.2 with
            | .w16 => .assemble16 w
            | .u32 => .assembleU32 w
            | .s32 => .assembleS32 w
            | .f64 => .assembleF64 w) alarm = .next t := by
  intro p hp
  refine ⟨_, _, Vector.ofFn fun j =>
    if j.val < p.1.toNat then (List.replicate 16 5#16).getD j.val 0#16 else 0#16,
    rfl, rfl, rfl, ?_, fun j => by simp [resp], ?_⟩
  · revert p
    decide
  · split
    · exact ⟨_, rfl⟩
    · split <;> exact ⟨_, rfl⟩

theorem test_witness_IdleWithoutCommandStays : alarm.fsm = .idle ∧ alarm.commands = [] := ⟨rfl, rfl⟩

/-- A state that waits, one that times out, and one that refuses. -/
theorem test_witness_CommandsAreHeldWhileAwaiting :
    (waiting 1#8 .w16 0x0400#16 [notYet]).fsm = .awaitResponse ∧
    (∃ t, step (waiting 1#8 .w16 0x0400#16 [notYet]) = .next t) ∧
    (∃ t, step (waiting 1#8 .w16 0x0400#16 [late]) = .next t) ∧
    (∃ q, step (waiting 1#8 .w16 0x0400#16 [arrives (resp [])]) = .refused q) :=
  ⟨rfl, ⟨_, rfl⟩, ⟨_, rfl⟩, ⟨_, rfl⟩⟩

theorem test_witness_ReadPortsShowTheState :
    alarm.fsm = .idle ∧ (waiting 1#8 .w16 0x0400#16 []).fsm = .awaitResponse := ⟨rfl, rfl⟩

/-- Every read constructor. -/
theorem test_witness_ReadsStartTheirRequest :
    (script [] [true] []).transport.starts = [true] ∧
    ∀ i ∈ [Instr.read 0x36#8 8#8 .u32, .rdAlarms, .rdSerial, .rdFwdvolF64, .rdFwdvolU32,
        .rdNetvolF64, .rdNetvolS32],
      ∃ a c w, i.expand = .read a c w := by
  refine ⟨rfl, ?_⟩
  simp only [List.forall_mem_cons, List.not_mem_nil, false_imp_iff, implies_true, and_true]
  exact ⟨⟨_, _, _, rfl⟩, ⟨_, _, _, rfl⟩, ⟨_, _, _, rfl⟩, ⟨_, _, _, rfl⟩, ⟨_, _, _, rfl⟩,
    ⟨_, _, _, rfl⟩, ⟨_, _, _, rfl⟩⟩

/-- Every write constructor; the checked ones at 8, the largest index that passes. -/
theorem test_witness_WritesStartTheirRequest :
    (script [] [true] []).transport.starts = [true] ∧
    ∀ i ∈ [Instr.write 0x09#8 5#16, .wrWeekday 3#16, .wrDay 15#16, .wrMonth 11#16, .wrYear 2026#16,
        .wrHours 23#16, .wrMinutes 59#16, .writeChk 0x09#8 8#16, .wrVolres 8#16, .wrFlowres 8#16],
      ∃ a v, i.expand = .write a v ∨ (i.expand = .writeChk a v ∧ v.toNat ≤ 8) := by
  refine ⟨rfl, ?_⟩
  simp only [List.forall_mem_cons, List.not_mem_nil, false_imp_iff, implies_true, and_true]
  exact ⟨⟨_, _, .inl rfl⟩, ⟨_, _, .inl rfl⟩, ⟨_, _, .inl rfl⟩, ⟨_, _, .inl rfl⟩, ⟨_, _, .inl rfl⟩,
    ⟨_, _, .inl rfl⟩, ⟨_, _, .inl rfl⟩, ⟨_, _, .inr ⟨rfl, by decide⟩⟩,
    ⟨_, _, .inr ⟨rfl, by decide⟩⟩, ⟨_, _, .inr ⟨rfl, by decide⟩⟩⟩

/-- A read, a write, and a checked write of 8, under each answer. -/
theorem test_witness_StartAnswerDecides :
    (script [] [true] []).transport.starts = [true] ∧
    (script [] [false] []).transport.starts = [false] ∧
    (∃ q, Claims.requestOf .rdSerial = some q) ∧ (∃ q, Claims.requestOf (.wrDay 15#16) = some q) ∧
    ∃ q, Claims.requestOf (.wrVolres 8#16) = some q :=
  ⟨rfl, rfl, ⟨_, rfl⟩, ⟨_, rfl⟩, ⟨_, rfl⟩⟩

/-- Both sides of the bound, for each checked write. -/
theorem test_witness_ResolutionIndexIsChecked :
    (Instr.writeChk 0x07#8 9#16).expand = .writeChk 0x07#8 9#16 ∧
    (Instr.wrVolres 9#16).expand = .writeChk 0x07#8 9#16 ∧
    (Instr.wrFlowres 8#16).expand = .writeChk 0x08#8 8#16 ∧
    8 < (9#16).toNat ∧ (8#16).toNat ≤ 8 := by decide

theorem test_witness_FreeStartAnswerCompletes :
    (∃ q, Claims.requestOf .rdAlarms = some q) ∧ alarm.transport.starts = [] := ⟨⟨_, rfl⟩, rfl⟩

theorem test_witness_WaitingRoundGoesOn :
    ∃ s : State, ∃ rs, s.fsm = .awaitResponse ∧ s.transport.rounds = ⟨true, none⟩ :: rs :=
  ⟨waiting 1#8 .w16 0x0400#16 [notYet], [], rfl, rfl⟩

/-- With and without a response that is never polled. -/
theorem test_witness_TimeoutEndsTheCommand :
    (∃ s : State, ∃ rs, s.fsm = .awaitResponse ∧ s.transport.rounds = ⟨false, none⟩ :: rs) ∧
    ∃ s : State, ∃ rs, s.fsm = .awaitResponse ∧ s.transport.rounds = ⟨false, some (resp [7#16])⟩ :: rs :=
  ⟨⟨waiting 1#8 .w16 0x0400#16 [late], [], rfl, rfl⟩,
    ⟨waiting 1#8 .w16 0x0400#16 [⟨false, some (resp [7#16])⟩], [], rfl, rfl⟩⟩

theorem test_witness_ExceptionEndsTheCommand :
    ∃ s : State, ∃ r rs, s.fsm = .awaitResponse ∧ s.transport.rounds = ⟨true, some r⟩ :: rs ∧
      r.hasException = true :=
  ⟨waiting 1#8 .w16 0x0400#16 [arrives (exc 2#8)], exc 2#8, [], rfl, rfl, rfl⟩

theorem recorded_read : (waiting 16#8 .f64 0x0418#16 []).pending.Recorded := by
  unfold PendingTransaction.Recorded
  decide

theorem recorded_write : (waiting 0#8 .w16 0x0602#16 []).pending.Recorded := by
  unfold PendingTransaction.Recorded
  decide

/-- A write, and the longest read. -/
theorem test_witness_SuccessEndsTheCommand :
    (∃ s : State, ∃ r rs, s.fsm = .awaitResponse ∧ s.transport.rounds = ⟨true, some r⟩ :: rs ∧
      r.hasException = false ∧ s.pending.registersToRead.toNat ≤ r.registers.length ∧ s.Inv ∧
      s.pending.registersToRead = 0#8) ∧
    ∃ s : State, ∃ r rs, s.fsm = .awaitResponse ∧ s.transport.rounds = ⟨true, some r⟩ :: rs ∧
      r.hasException = false ∧ s.pending.registersToRead.toNat ≤ r.registers.length ∧ s.Inv ∧
      s.pending.registersToRead ≠ 0#8 :=
  ⟨⟨waiting 0#8 .w16 0x0602#16 [arrives (resp [])], resp [], [], rfl, rfl, rfl, by decide,
      fun _ => ⟨recorded_write, rfl⟩, rfl⟩,
    ⟨waiting 16#8 .f64 0x0418#16 [arrives (resp (List.replicate 16 7#16))],
      resp (List.replicate 16 7#16), [], rfl, rfl, rfl, by decide,
      fun _ => ⟨recorded_read, rfl⟩, by decide⟩⟩

theorem test_witness_ShortResponseIsRefused :
    ∃ s : State, ∃ r rs, s.fsm = .awaitResponse ∧ s.transport.rounds = ⟨true, some r⟩ :: rs ∧
      r.hasException = false ∧ r.registers.length < s.pending.registersToRead.toNat :=
  ⟨waiting 2#8 .u32 0x0436#16 [arrives (resp [1#16])], resp [1#16], [], rfl, rfl, rfl, by decide⟩

/-- Program P1: one waiting round, then the response. -/
theorem test_witness_ReadRunsToSuccess :
    ∃ s : State, ∃ i a c w word rest ss k r rs, s.fsm = .idle ∧ s.commands = word :: rest ∧
      decode word = .ok i ∧ i.expand = .read a c w ∧ s.transport.starts = true :: ss ∧
      s.transport.rounds = List.replicate k ⟨true, none⟩ ++ ⟨true, some r⟩ :: rs ∧
      r.hasException = false ∧ c.toNat * w.regsPerValue ≤ r.registers.length :=
  ⟨script [0x00045201E000000000#72] [true] [notYet, arrives (resp [0xFFFF#16, 0xFFFE#16])],
    .rdNetvolS32, 0x52#8, 1#8, .s32, 0x00045201E000000000#72, [], [], 1,
    resp [0xFFFF#16, 0xFFFE#16], [], rfl, rfl, by decide, rfl, rfl, rfl, rfl, by decide⟩

/-- V-T-10 and V-T-16. -/
theorem test_witness_WriteRunsToSuccess :
    (∃ s : State, ∃ i a v word rest ss k r rs, s.fsm = .idle ∧ s.commands = word :: rest ∧
      decode word = .ok i ∧ i.expand = .write a v ∧
      s.transport.starts = true :: ss ∧
      s.transport.rounds = List.replicate k ⟨true, none⟩ ++ ⟨true, some r⟩ :: rs ∧
      r.hasException = false) ∧
    ∃ s : State, ∃ i a v word rest ss k r rs, s.fsm = .idle ∧ s.commands = word :: rest ∧
      decode word = .ok i ∧ i.expand = .writeChk a v ∧ v.toNat ≤ 8 ∧
      s.transport.starts = true :: ss ∧
      s.transport.rounds = List.replicate k ⟨true, none⟩ ++ ⟨true, some r⟩ :: rs ∧
      r.hasException = false :=
  ⟨⟨script [0x0006020110000F0000#72] [true] [arrives (resp [])], .wrDay 15#16, 0x02#8, 15#16,
      0x0006020110000F0000#72, [], [], 0, resp [], [], rfl, rfl, by decide, rfl, rfl, rfl, rfl⟩,
    ⟨script [0x000607011000088000#72] [true] [arrives (resp [])], .wrVolres 8#16, 0x07#8, 8#16,
      0x000607011000088000#72, [], [], 0, resp [], [], rfl, rfl, by decide, rfl, by decide, rfl, rfl,
      rfl⟩⟩

/-- V-T-3 and V-T-5. -/
theorem test_witness_FailedTransactionKeepsBuffers :
    ∀ last ∈ [late, arrives (exc 2#8)], ∃ s : State, ∃ i q word rest ss k rs code calls,
      s.fsm = .idle ∧ s.commands = word :: rest ∧ decode word = .ok i ∧
      Claims.requestOf i = some q ∧ s.transport.starts = true :: ss ∧
      s.transport.rounds = List.replicate k ⟨true, none⟩ ++ last :: rs ∧
      ((last.awaiting = false ∧ code = 5#8 ∧ calls = [Call.awaiting]) ∨
       (last.awaiting = true ∧ ∃ r, last.poll = some r ∧ r.hasException = true ∧
         code = r.exceptionCode ∧
         calls = [Call.awaiting, .poll, .hasException, .exceptionCode])) := by
  simp only [List.forall_mem_cons, List.not_mem_nil, false_imp_iff, implies_true, and_true]
  exact ⟨⟨script [0x000436012000000000#72] [true] [notYet, notYet, late], .rdFwdvolU32, _,
      0x000436012000000000#72, [], [], 2, [], _, _, rfl, rfl, by decide, rfl, rfl, rfl,
      .inl ⟨rfl, rfl, rfl⟩⟩,
    ⟨script [0x000436012000000000#72] [true] [arrives (exc 2#8)], .rdFwdvolU32, _,
      0x000436012000000000#72, [], [], 0, [], _, _, rfl, rfl, by decide, rfl, rfl, rfl,
      .inr ⟨rfl, _, rfl, rfl, rfl, rfl⟩⟩⟩

/-- A script that ends the loop, and one that does not. -/
theorem test_witness_BigStepAgreesWithSmallSteps :
    (waiting 1#8 .w16 0x0400#16 [notYet, late]).fsm = .awaitResponse ∧
    (bigStep (waiting 1#8 .w16 0x0400#16 [notYet, late])).isSome = true ∧
    bigStep (waiting 1#8 .w16 0x0400#16 [notYet, notYet]) = none := ⟨rfl, rfl, rfl⟩

/-- A wait that ends: `rounds` listed, then one round for ever. -/
def waitingThen (rounds again : List Round) : State :=
  { waiting 1#8 .w16 0x0400#16 rounds with transport := ⟨[], rounds, again, 0, 0, []⟩ }

theorem test_witness_LiveTransportEndsTheWait :
    ∃ s : State, s.fsm = .awaitResponse ∧ s.transport.Live ∧
      s.transport.Shaped s.pending.registersToRead.toNat :=
  ⟨waitingThen [notYet] [arrives (resp [7#16])], rfl, ⟨1, rfl⟩, fun k r hr hx =>
    Transport.upcoming_of_listed (t := (waitingThen [notYet] [arrives (resp [7#16])]).transport)
      (P := fun q => ∀ r, q.poll = some r → r.hasException = false → 1 ≤ r.registers.length)
      (by simp [waitingThen])
      (by
        rintro q (hq | hq)
        · obtain rfl := List.mem_singleton.1 hq
          rintro r ⟨⟩
        · obtain rfl := List.mem_singleton.1 hq
          rintro r ⟨⟩ _
          decide) k r hr hx⟩

/-- R64, one state for each clause: a Response that comes when no deadline passes, a deadline that passes with no
Response, and neither. -/
theorem test_witness_AwaitingContractDecidesTheEnd :
    ((waitingThen [notYet] [arrives (resp [7#16])]).transport.KeepsAwaiting none ∧
      ((waitingThen [notYet] [arrives (resp [7#16])]).transport.upcoming 0).poll = none ∧
      ((waitingThen [notYet] [arrives (resp [7#16])]).transport.upcoming 1).poll = some (resp [7#16])) ∧
    ((waitingThen [notYet] [late]).transport.KeepsAwaiting (some 1) ∧
      ((waitingThen [notYet] [late]).transport.upcoming 0).poll = none) ∧
    ((waitingThen [] [notYet]).transport.KeepsAwaiting none ∧
      ∀ j, ((waitingThen [] [notYet]).transport.upcoming j).poll = none) := by
  refine ⟨⟨fun k _ => ?_, rfl, rfl⟩, ⟨fun k hk => ?_, rfl⟩, fun k _ => ?_, fun j => ?_⟩
  · simp [Transport.upcoming_of_listed (t := (waitingThen [notYet] [arrives (resp [7#16])]).transport)
      (P := fun q => q.awaiting = true) (by simp [waitingThen])
      (by simp [waitingThen, waiting, notYet, arrives]) k]
  · match k with
    | 0 => exact ⟨fun h => (by cases h), fun ⟨d, h, h'⟩ => (by cases h; omega)⟩
    | 1 => exact ⟨fun _ => ⟨1, rfl, Nat.le_refl 1⟩, fun _ => rfl⟩
    | k + 2 => exact absurd (hk 1 (by omega)) (by decide)
  · simp [Transport.upcoming_of_listed (t := (waitingThen [] [notYet]).transport)
      (P := fun q => q.awaiting = true) (by simp [waitingThen])
      (by simp [waitingThen, waiting, notYet]) k]
  · exact Transport.upcoming_of_listed (t := (waitingThen [] [notYet]).transport)
      (P := fun q => q.poll = none) (by simp [waitingThen])
      (by simp [waitingThen, waiting, notYet]) j

/-- Program P5: a script with no end. -/
theorem test_witness_WaitCanHang :
    ∃ s : State, s.fsm = .awaitResponse ∧ ∀ k, (s.transport.upcoming k).waiting = true :=
  ⟨waitingThen [] [notYet], rfl, fun k =>
    Transport.upcoming_of_listed (t := (waitingThen [] [notYet]).transport)
      (P := fun q => q.waiting = true) (by simp [waitingThen])
      (by
        rintro q (hq | hq)
        · cases hq
        · obtain rfl := List.mem_singleton.1 hq
          rfl) k⟩

/-- The patterns of V-A32-2 and V-F64-3. -/
theorem test_witness_AssembleInvertsSplit :
    (∃ (p : BitVec 32) (w : Window), w[0] = p.extractLsb' 16 16 ∧ w[1] = p.extractLsb' 0 16) ∧
    ∃ (q : F64) (w : Window), w[0] = q.extractLsb' 0 16 ∧ w[1] = q.extractLsb' 16 16 ∧
      w[2] = q.extractLsb' 32 16 ∧ w[3] = q.extractLsb' 48 16 :=
  ⟨⟨0xFFFFFFFE#32, win [0xFFFF#16, 0xFFFE#16], by decide, by decide⟩,
    ⟨0x405EDD2F1A9FBE77#64, win [0xBE77#16, 0x1A9F#16, 0xDD2F#16, 0x405E#16], by decide, by decide,
      by decide, by decide⟩⟩

/-- Each width, with registers asked for and delivered. -/
theorem test_witness_SuccessfulReadIsExclusive :
    ∀ p ∈ [(1#8, WidthTag.w16), (2#8, .u32), (2#8, .s32), (4#8, .f64)],
      ∃ r rs, (waiting p.1 p.2 0#16 [arrives (resp (List.replicate 16 5#16))]).transport.rounds =
          ⟨true, some r⟩ :: rs ∧ r.hasException = false ∧ p.1 ≠ 0#8 ∧
        p.1.toNat ≤ r.registers.length := by
  intro p hp
  refine ⟨_, _, rfl, rfl, ?_⟩
  revert p
  decide

/-- A product in range, a tie, and one that overflows. -/
theorem test_witness_ProductIsRoundedToNearestEven :
    roundProduct (100 * unitsPerOne) < 2 ^ 2098 ∧
    2 * (2 ^ 1073 * 1 % 2 ^ droppedBits (2 ^ 1073 * 1)) = 2 ^ droppedBits (2 ^ 1073 * 1) ∧
    2 ^ 2098 ≤ roundProduct (2 ^ 2097 * 2 ^ 1075) := by
  decide +kernel

/-- 0.5, a tie. -/
theorem test_witness_RoundingTiesGoAwayFromZero : 2 * 2 ^ 1073 = (2 * 0 + 1) * unitsPerOne := by
  decide +kernel

/-- The largest and the smallest integer in range, the next beyond each, and two numbers that are not whole. -/
theorem test_witness_CastKeepsTheInteger :
    (-(2 : Int) ^ (16 - 1) ≤ signedInt false 32767 ∧ signedInt false 32767 < 2 ^ (16 - 1)) ∧
    (-(2 : Int) ^ (16 - 1) ≤ signedInt true 32768 ∧ signedInt true 32768 < 2 ^ (16 - 1)) ∧
    ¬(-(2 : Int) ^ (16 - 1) ≤ signedInt false 32768 ∧ signedInt false 32768 < 2 ^ (16 - 1)) ∧
    ¬(-(2 : Int) ^ (32 - 1) ≤ signedInt true 2147483649 ∧
      signedInt true 2147483649 < 2 ^ (32 - 1)) ∧
    (32767 * unitsPerOne + 1) % unitsPerOne ≠ 0 ∧ 1 % unitsPerOne ≠ 0 := by
  decide +kernel

/-- Selectors with no register asked for, with and without a tag byte. -/
theorem test_witness_AssembleNoneWritesNothing :
    (0x000#9 : Selector).extractLsb' 8 1 = 0#1 ∧ (0x0FF#9 : Selector).extractLsb' 8 1 = 0#1 := by
  decide

/-- A NaN, above, below, and both bounds themselves. -/
theorem test_witness_Compress16Result :
    Claims.IsNaN 0x7FF8000000000000#64 ∧ Claims.IsNaN 0xFFF0000000000001#64 ∧
    ¬Claims.IsNaN 0x7FF0000000000000#64 ∧
    (FVal.ofBits 0x40747AB851EB851F#64).lt (FVal.ofBits 0x40747AB851EB8520#64) = true ∧
    (FVal.ofBits 0xC0747AE147AE147C#64).lt (FVal.ofBits 0xC0747AE147AE147B#64) = true ∧
    (FVal.ofBits 0x40747AB851EB851F#64).lt (FVal.ofBits 0x40747AB851EB851F#64) = false ∧
    (FVal.ofBits 0x40747AB851EB851F#64).lt (FVal.ofBits 0xC0747AE147AE147B#64) = false ∧
    (FVal.ofBits 0xC0747AE147AE147B#64).lt (FVal.ofBits 0xC0747AE147AE147B#64) = false := by
  unfold Claims.IsNaN
  decide +kernel

/-- A NaN, above, below, and both bounds themselves. -/
theorem test_witness_Compress32Result :
    Claims.IsNaN 0x7FF8000000000000#64 ∧ ¬Claims.IsNaN 0xFFF0000000000000#64 ∧
    (FVal.ofBits 0x41747AE147851EB8#64).lt (FVal.ofBits 0x41747AE147851EB9#64) = true ∧
    (FVal.ofBits 0xC1747AE147AE147C#64).lt (FVal.ofBits 0xC1747AE147AE147B#64) = true ∧
    (FVal.ofBits 0x41747AE147851EB8#64).lt (FVal.ofBits 0x41747AE147851EB8#64) = false ∧
    (FVal.ofBits 0x41747AE147851EB8#64).lt (FVal.ofBits 0xC1747AE147AE147B#64) = false ∧
    (FVal.ofBits 0xC1747AE147AE147B#64).lt (FVal.ofBits 0xC1747AE147AE147B#64) = false := by
  unfold Claims.IsNaN
  decide +kernel

/-- -0.001, V-C32-6: the operand the sign check must let through. -/
theorem test_witness_StageTwoNeverFires :
    ¬Claims.IsNaN 0xBF50624DD2F1A9FC#64 ∧
    (FVal.ofBits 0x41747AE147851EB8#64).lt (FVal.ofBits 0xBF50624DD2F1A9FC#64) = false ∧
    (FVal.ofBits 0xBF50624DD2F1A9FC#64).lt (FVal.ofBits 0xC1747AE147AE147B#64) = false := by
  unfold Claims.IsNaN
  decide +kernel

/-- 1.0 under both commands. -/
theorem test_witness_CompressionIsAccurate :
    FVal.ofBits 0x3FF0000000000000#64 = .fin false unitsPerOne ∧
    (after (exec (.compress16 0x3FF0000000000000#64) alarm)).map (·.ret.code) = some 0#8 ∧
    (after (exec (.compress32 0x3FF0000000000000#64) alarm)).map (·.ret.code) = some 0#8 := by
  decide +kernel

theorem test_witness_CompressWritesNoState :
    (after (exec (.compress16 0x3FF0000000000000#64) alarm)).isSome = true ∧
    (after (exec (.compress32 0x3FF0000000000000#64) alarm)).isSome = true := by
  decide +kernel

theorem test_witness_CompressCodesAreLegal :
    (after (exec (.compress16 0x408F400000000000#64) alarm)).map (·.ret.code) = some 6#8 ∧
    (after (exec (.compress32 0xC26D1A94A2000000#64) alarm)).map (·.ret.code) = some 9#8 := by
  decide +kernel

/-- A wait that goes on, in a state with a legal record. -/
theorem test_witness_StepKeepsInvariant :
    ∃ s : State, ∃ t, s.Inv ∧ step s = .next t ∧ t.fsm = .awaitResponse :=
  ⟨waiting 16#8 .f64 0x0418#16 [notYet], _, fun _ => ⟨recorded_read, rfl⟩, rfl, rfl⟩

/-- A step that ends a read. -/
theorem test_witness_StepKeepsBuffersExclusive :
    ∃ s : State, ∃ t, s.buffers.Exclusive ∧ step s = .next t ∧ s.fsm = .awaitResponse :=
  ⟨waiting 2#8 .u32 0x0436#16 [arrives (resp [1#16, 2#16])], _, .inl ⟨rfl, rfl, rfl⟩, rfl, rfl⟩

theorem test_witness_OnlySuccessfulReadsChangeBuffers :
    ∃ s : State, ∃ t, step s = .next t ∧ t.buffers ≠ s.buffers :=
  ⟨waiting 2#8 .u32 0x0436#16 [arrives (resp [1#16, 2#16])], _, rfl, by decide⟩

/-- A step that records, and one that does not. -/
theorem test_witness_RequestFieldsChangeOnlyAtRecord :
    (∃ q t, (script [0x000401101000000000#72] [true] []).fsm = .idle ∧
      decode 0x000401101000000000#72 = .ok .rdSerial ∧ Claims.requestOf .rdSerial = some q ∧
      step (script [0x000401101000000000#72] [true] []) = .next t ∧
      t.pending.registersToRead = 16#8) ∧
    ∃ t, step alarm = .next t :=
  ⟨⟨_, _, rfl, by decide, rfl, rfl, rfl⟩, ⟨_, rfl⟩⟩

theorem test_witness_LastErrorCodeIsTheReturnedCode :
    ∃ s : State, ∃ t, step s = .next t ∧ t.pending.lastErrorCode ≠ s.pending.lastErrorCode :=
  ⟨waiting 1#8 .w16 0x0400#16 [late], _, rfl, by decide⟩

theorem test_witness_OneRequestAtATime :
    (∃ t, step (script [0x000401101000000000#72] [true] []) = .next t ∧ t.transport.requests = 1) ∧
    ∃ t, step (waiting 1#8 .w16 0x0400#16 [late]) = .next t :=
  ⟨⟨_, rfl, rfl⟩, ⟨_, rfl⟩⟩

/-- V-T-9. -/
theorem test_witness_ZeroExceptionLooksLikeSuccess :
    ∃ s : State, ∃ r rs, s.fsm = .awaitResponse ∧ s.transport.rounds = ⟨true, some r⟩ :: rs ∧
      r.hasException = true ∧ r.exceptionCode = 0#8 :=
  ⟨waiting 2#8 .u32 0x0436#16 [arrives (exc 0#8)], exc 0#8, [], rfl, rfl, rfl, rfl⟩

theorem test_witness_CodeZeroMeansSuccess :
    ∃ s : State, ∃ t, s.fsm = .awaitResponse ∧ s.transport.NoZeroException ∧ step s = .next t ∧
      t.fsm = .idle ∧ t.ret.code = 0#8 :=
  ⟨waitingThen [] [arrives (resp [7#16])], _, rfl, fun k r hr hx =>
    Transport.upcoming_of_listed (t := (waitingThen [] [arrives (resp [7#16])]).transport)
      (P := fun q => ∀ r, q.poll = some r → r.hasException = true → r.exceptionCode ≠ 0#8)
      (by simp [waitingThen])
      (by
        rintro q (hq | hq)
        · cases hq
        · obtain rfl := List.mem_singleton.1 hq
          rintro r ⟨⟩ hx
          cases hx) k r hr hx, rfl, rfl, rfl⟩

/-- Each of the four outcomes occurs. -/
theorem test_witness_StepRefusesOnlyWhatTheSpecRefuses :
    (∃ t, step alarm = .next t) ∧
    (∃ why, step (script [0x030000000000000000#72] [] []) = .refused (.reservedCommand why)) ∧
    after (exec (.compress16 0x7FF8000000000000#64) alarm) = none ∧
    step (waiting 2#8 .u32 0x0436#16 [arrives (resp [1#16])]) = .refused .shortResponse :=
  ⟨⟨_, rfl⟩, ⟨_, rfl⟩, by decide +kernel, rfl⟩

end Sys2Proof.Tests
end

section
/-! Proof of O59: a NaN pattern is the only operand a compress command refuses, so a step refuses only a reserved word,
a NaN operand or a short response. -/

namespace Sys2Proof.Machine

/-! ### NaN patterns (R11) -/

/-- The patterns R11 calls NaN are the ones the model reads as a NaN. -/
theorem ofBits_eq_nan_iff (v : F64) : FVal.ofBits v = .nan ↔ Claims.IsNaN v := by
  simp only [FVal.ofBits, Claims.IsNaN, ne_eq, BitVec.toNat_eq, BitVec.toNat_ofNat]
  split
  · split <;> simp_all
  · split <;> simp_all

/-! ### The bounds of R132 in units, and how close 100 times each is to a clamp -/

theorem hi16_eq : FVal.ofBits hi16 = .fin false (0x147AB851EB851F * 2 ^ 1030) := by decide +kernel

theorem lo16_eq : FVal.ofBits lo16 = .fin true (0x147AE147AE147B * 2 ^ 1030) := by decide +kernel

theorem hi32_eq : FVal.ofBits hi32 = .fin false (0x147AE147851EB8 * 2 ^ 1046) := by decide +kernel

theorem lo32_eq : FVal.ofBits lo32 = .fin true (0x147AE147AE147B * 2 ^ 1046) := by decide +kernel

/-! ### No cast is out of range (R142) -/

@[simp] theorem signedInt_false (k : Nat) : signedInt false k = k := rfl

@[simp] theorem signedInt_true (k : Nat) : signedInt true k = -k := rfl

/-- An operand between two bounds, 100 times which stay within a quarter of the signed range `[-2^b, 2^b)`, is scaled
to an integer of that range with the operand's sign, and a zero to a zero. -/
theorem scaled_of_bounds {v : FVal} {hi lo b : Nat} (hb : b ≤ 50)
    (hhi : hi * 400 ≤ (4 * (2 ^ b - 1) + 1) * unitsPerOne)
    (hlo : lo * 400 ≤ (4 * 2 ^ b + 1) * unitsPerOne) (hv : v ≠ .nan)
    (h1 : (FVal.fin false hi).lt v = false) (h2 : v.lt (FVal.fin true lo) = false) :
    ∃ s m j, v = .fin s m ∧ scaled v = .fin s (j * unitsPerOne) ∧ (m = 0 → j = 0) ∧
      -(2 : Int) ^ b ≤ signedInt s j ∧ signedInt s j < 2 ^ b := by
  obtain ⟨s, m, rfl, hm⟩ := finite_of_bounds hv h1 h2
  have hpow : 2 ^ b ≤ 2 ^ 50 := Nat.pow_le_pow_right (by omega) hb
  have hpos : 0 < 2 ^ b := Nat.two_pow_pos b
  have hcast : (2 : Int) ^ b = (2 ^ b : Nat) := by rw [Nat.cast_pow, Nat.cast_ofNat]
  cases s with
  | false =>
    obtain ⟨j, hj, hs, h0⟩ := scaled_le false m (2 ^ b - 1) (by omega)
      (Nat.le_trans (Nat.mul_le_mul_right 400 hm) hhi)
    exact ⟨false, m, j, rfl, hs, h0, by simp only [signedInt_false]; omega⟩
  | true =>
    obtain ⟨j, hj, hs, h0⟩ := scaled_le true m (2 ^ b) (by omega)
      (Nat.le_trans (Nat.mul_le_mul_right 400 hm) hlo)
    exact ⟨true, m, j, rfl, hs, h0, by simp only [signedInt_true]; omega⟩

theorem scaled_of_bounds16 {v : FVal} (hv : v ≠ .nan) (h1 : (FVal.ofBits hi16).lt v = false)
    (h2 : v.lt (FVal.ofBits lo16) = false) :
    ∃ s m j, v = .fin s m ∧ scaled v = .fin s (j * unitsPerOne) ∧ (m = 0 → j = 0) ∧
      -(2 : Int) ^ 15 ≤ signedInt s j ∧ signedInt s j < 2 ^ 15 := by
  rw [hi16_eq] at h1
  rw [lo16_eq] at h2
  exact scaled_of_bounds (by omega) (by decide +kernel) (by decide +kernel) hv h1 h2

theorem scaled_of_bounds32 {v : FVal} (hv : v ≠ .nan) (h1 : (FVal.ofBits hi32).lt v = false)
    (h2 : v.lt (FVal.ofBits lo32) = false) :
    ∃ s m j, v = .fin s m ∧ scaled v = .fin s (j * unitsPerOne) ∧ (m = 0 → j = 0) ∧
      -(2 : Int) ^ 31 ≤ signedInt s j ∧ signedInt s j < 2 ^ 31 := by
  rw [hi32_eq] at h1
  rw [lo32_eq] at h2
  exact scaled_of_bounds (by omega) (by decide +kernel) (by decide +kernel) hv h1 h2

theorem f2i_scaled_of_bounds16 {v : FVal} (hv : v ≠ .nan) (h1 : (FVal.ofBits hi16).lt v = false)
    (h2 : v.lt (FVal.ofBits lo16) = false) : f2i 16 (scaled v) ≠ none := by
  obtain ⟨s, m, j, -, hs, -, hj⟩ := scaled_of_bounds16 hv h1 h2
  rw [hs, f2i_fin_int hj]
  exact Option.some_ne_none _

theorem f2i_scaled_of_bounds32 {v : FVal} (hv : v ≠ .nan) (h1 : (FVal.ofBits hi32).lt v = false)
    (h2 : v.lt (FVal.ofBits lo32) = false) : f2i 32 (scaled v) ≠ none := by
  obtain ⟨s, m, j, -, hs, -, hj⟩ := scaled_of_bounds32 hv h1 h2
  rw [hs, f2i_fin_int hj]
  exact Option.some_ne_none _

/-! ### What an instruction can answer -/

/-- `COMPRESS16` refuses a NaN and answers for every other operand (R140, R142, R144). -/
theorem exec_compress16_next_or_nan (v : F64) (s : State) :
    (∃ t, exec (.compress16 v) s = .next t) ∨
      (Claims.IsNaN v ∧ exec (.compress16 v) s = .refused .nanOperand) := by
  rcases compress16_cases v with ⟨hn, h⟩ | ⟨hn, ⟨-, h⟩ | ⟨h1, ⟨-, h⟩ | ⟨h2, ⟨x, -, h⟩ | ⟨hc, -⟩⟩⟩⟩
  · exact .inr ⟨(ofBits_eq_nan_iff v).1 hn, exec_compress16_error h s⟩
  · exact .inl ⟨_, exec_compress16_ok h s⟩
  · exact .inl ⟨_, exec_compress16_ok h s⟩
  · exact .inl ⟨_, exec_compress16_ok h s⟩
  · exact absurd hc (f2i_scaled_of_bounds16 hn h1 h2)

/-- `COMPRESS32` refuses a NaN and answers for every other operand (R141, R142, R144). -/
theorem exec_compress32_next_or_nan (v : F64) (s : State) :
    (∃ t, exec (.compress32 v) s = .next t) ∨
      (Claims.IsNaN v ∧ exec (.compress32 v) s = .refused .nanOperand) := by
  rcases compress32_cases v with ⟨hn, h⟩ | ⟨hn, ⟨-, h⟩ | ⟨h1, ⟨-, h⟩ | ⟨h2, ⟨x, -, h⟩ | ⟨hc, -⟩⟩⟩⟩
  · exact .inr ⟨(ofBits_eq_nan_iff v).1 hn, exec_compress32_error h s⟩
  · exact .inl ⟨_, exec_compress32_ok h s⟩
  · exact .inl ⟨_, exec_compress32_ok h s⟩
  · exact .inl ⟨_, exec_compress32_checked h s⟩
  · exact absurd hc (f2i_scaled_of_bounds32 hn h1 h2)

/-- Every instruction answers a next state but a compress command of a NaN (R15, R144). -/
theorem exec_next_or_nan (i : Instr) (s : State) :
    (∃ t, exec i s = .next t) ∨
      (∃ v, (i = .compress16 v ∨ i = .compress32 v) ∧ Claims.IsNaN v ∧
        exec i s = .refused .nanOperand) := by
  cases i with
  | compress16 v => exact (exec_compress16_next_or_nan v s).imp_right fun h => ⟨v, .inl rfl, h⟩
  | compress32 v => exact (exec_compress32_next_or_nan v s).imp_right fun h => ⟨v, .inr rfl, h⟩
  | _ => exact .inl ⟨_, rfl⟩

/-! ### What each kind of step can answer -/

/-- Acceptance refuses only a reserved word and a NaN operand (R89, R144). -/
theorem acceptCommand_next_or_refused (s : State) :
    (∃ t, acceptCommand s = .next t) ∨
    (∃ why, acceptCommand s = .refused (.reservedCommand why)) ∨
    (acceptCommand s = .refused .nanOperand ∧ ∃ w rest v, s.commands = w :: rest ∧
      (decode w = .ok (.compress16 v) ∨ decode w = .ok (.compress32 v)) ∧ Claims.IsNaN v) := by
  cases hc : s.commands with
  | nil => exact .inl ⟨s, by simp [acceptCommand, hc]⟩
  | cons w rest =>
    cases hd : decode w with
    | error why => exact .inr (.inl ⟨why, acceptCommand_reserved hc hd⟩)
    | ok i =>
      rw [acceptCommand_ok hc hd]
      rcases exec_next_or_nan i { s with commands := rest } with hn | ⟨v, hi, hv, hr⟩
      · exact .inl hn
      · exact .inr (.inr ⟨hr, w, rest, v, rfl, by simpa [hd] using hi, hv⟩)

/-- A round of the loop refuses only a short response (R65, U6). -/
theorem pollRound_next_or_short (s : State) :
    (∃ t, pollRound s = .next t) ∨
    (pollRound s = .refused .shortResponse ∧ ∃ r, s.transport.nextRound.1.poll = some r ∧
      r.hasException = false ∧ r.registers.length < s.pending.registersToRead.toNat) := by
  rcases pollRound_cases s with ⟨-, h⟩ | ⟨-, -, h⟩ | ⟨q, -, -, -, h⟩ | ⟨q, w, -, -, -, -, h⟩ |
    ⟨q, -, hp, hx, hl, h⟩
  · exact .inl ⟨_, h⟩
  · exact .inl ⟨_, h⟩
  · exact .inl ⟨_, h⟩
  · exact .inl ⟨_, h⟩
  · exact .inr ⟨h, q, hp, hx, hl⟩

/-- Settles O59, by the two kinds of step: acceptance refuses a reserved word or a NaN, a round a short response. -/
theorem stepRefusesOnlyWhatTheSpecRefuses : Obligations.StepRefusesOnlyWhatTheSpecRefuses := by
  intro s
  cases hf : s.fsm with
  | idle =>
    rw [step_idle hf]
    rcases acceptCommand_next_or_refused s with h | h | h
    · exact .inl h
    · exact .inr (.inl h)
    · exact .inr (.inr (.inl h))
  | awaitResponse =>
    rw [step_await hf]
    rcases pollRound_next_or_short s with h | h
    · exact .inl h
    · exact .inr (.inr (.inr h))

end Sys2Proof.Machine
end

section
/-! What a step can do, said once (R160): an accepted command begins its request (R164 to R166) or returns a pair and
touches nothing else (R145, R163); a round of the loop goes on, raises an error, or decodes and succeeds (R167 to
R169). -/

namespace Sys2Proof.Machine

/-! ### Beginning a request (R164 to R166) -/

/-- Record and start, for any request. -/
def State.begin (s : State) (q : Claims.Request) : State :=
  (s.record q.fid q.words q.tag).start q.call

/-- A request is taken, and awaited with nothing presented at the return port, or the channel is busy, which ends it
with code 3; its record is written either way. -/
theorem State.begin_cases (s : State) (q : Claims.Request) :
    ((s.begin q).fsm = .awaitResponse ∧ (s.begin q).ret.valid = false ∧
      (s.begin q).pending = q.record s.pending.lastErrorCode) ∨
    ((s.begin q).fsm = .idle ∧ (s.begin q).ret = ⟨true, errChannelBusy, .absent⟩ ∧
      (s.begin q).pending = q.record errChannelBusy) := by
  rcases (s.record q.fid q.words q.tag).start_cases q.call with ⟨-, h⟩ | ⟨-, h⟩
  · exact .inl (by simp [State.begin, h, Claims.Request.record])
  · exact .inr (by simp [State.begin, h, Claims.Request.record])

@[simp] theorem State.begin_buffers (s : State) (q : Claims.Request) :
    (s.begin q).buffers = s.buffers := by
  simp [State.begin]

/-- The request fields after the record step are the request's (R28). -/
theorem State.begin_pending (s : State) (q : Claims.Request) :
    (s.begin q).pending = q.record (s.begin q).pending.lastErrorCode := by
  rcases s.begin_cases q with ⟨-, -, h⟩ | ⟨-, -, h⟩ <;> rw [h] <;> rfl

/-! ### The request of an instruction -/

theorem startReading_eq_begin (a c : BitVec 8) (w : WidthTag) (s : State) :
    startReading a c w s = s.begin (Claims.readRequest a c w) := by
  simp [startReading, State.begin, readCall, Claims.readRequest, functionId, registersToReadOf,
    readWords]

theorem startWriting_eq_begin (a : BitVec 8) (v : RegWord) (s : State) :
    startWriting a v s = s.begin (Claims.writeRequest a v) := by
  simp [startWriting, State.begin, writeCall, Claims.writeRequest, functionId]

/-- An instruction does what it expands to (R95, R180). -/
theorem exec_expand (i : Instr) (s : State) : exec i.expand s = exec i s := by
  cases i <;> rfl

/-- An instruction makes the request of what it expands to. -/
theorem requestOf_expand (i : Instr) : Claims.requestOf i.expand = Claims.requestOf i := by
  cases i <;> rfl

/-- A write's record is legal (R24 to R26). -/
theorem writeRequest_recorded (a : BitVec 8) (v : RegWord) (code : BitVec 8) :
    ((Claims.writeRequest a v).record code).Recorded :=
  ⟨rfl, extractLsb'_high ..⟩

theorem readWordsOk_iff (c : BitVec 8) (w : WidthTag) :
    readWordsOk c w = true ↔ 1 ≤ readWords c w ∧ readWords c w ≤ 16 := by
  simp only [readWordsOk, Bool.and_eq_true, decide_eq_true_eq]

/-- The record of a read of 1 to 16 words is legal: its 8-bit register holds the whole count (R24 to R26, R88). -/
theorem readRequest_recorded (a : BitVec 8) {c : BitVec 8} {w : WidthTag}
    (h : readWordsOk c w = true) (code : BitVec 8) :
    ((Claims.readRequest a c w).record code).Recorded := by
  obtain ⟨hpos, hle⟩ : 1 ≤ c.toNat * w.regsPerValue ∧ c.toNat * w.regsPerValue ≤ 16 :=
    (readWordsOk_iff c w).1 h
  have hwords : (BitVec.ofNat 8 (c.toNat * w.regsPerValue)).toNat = c.toNat * w.regsPerValue :=
    Nat.mod_eq_of_lt (by omega)
  have hne : BitVec.ofNat 8 (c.toNat * w.regsPerValue) ≠ 0#8 := fun h0 => by
    rw [h0] at hwords
    simp only [BitVec.toNat_ofNat] at hwords
    omega
  simp only [PendingTransaction.Recorded, Claims.Request.record, Claims.readRequest, if_neg hne, hwords]
  exact ⟨hle, Nat.dvd_mul_left .., extractLsb'_high ..⟩

/-! ### An accepted command -/

/-- What decodes expands to the base command of its word (R95, R96). -/
theorem decodeBase_expand {w : CommandWord} {i : Instr} (h : decode w = .ok i) :
    decodeBase w = .ok i.expand := by
  obtain ⟨j, hj, rfl⟩ := (decodeIn_ok_iff accessorMap w i).1 h
  rw [Instr.expand, expandIn_namedIn, expandIn_of_decodeBase accessorMap hj]
  exact hj

/-- A decoded instruction expands to one of the five commands; a read then asks for a legal number of words (R88). -/
theorem expand_of_decode {w : CommandWord} {i : Instr} (h : decode w = .ok i) :
    (∃ v, i.expand = .compress16 v) ∨ (∃ v, i.expand = .compress32 v) ∨
    (∃ a c tag, readWordsOk c tag = true ∧ i.expand = .read a c tag) ∨
    (∃ a v, i.expand = .write a v) ∨ (∃ a v, i.expand = .writeChk a v) := by
  rcases decodeBase_ok (decodeBase_expand h) with ⟨-, he⟩ | ⟨-, he⟩ | ⟨-, -, hr⟩ | ⟨-, -, hw⟩
  · exact .inl ⟨_, he⟩
  · exact .inr (.inl ⟨_, he⟩)
  · obtain ⟨tag, -, hok, -, -, -, he⟩ := decodeRead_ok hr
    exact .inr (.inr (.inl ⟨_, _, tag, hok, he⟩))
  · obtain ⟨-, -, -, ⟨-, he⟩ | ⟨-, he⟩⟩ := decodeWrite_ok hw
    · exact .inr (.inr (.inr (.inl ⟨_, _, he⟩)))
    · exact .inr (.inr (.inr (.inr ⟨_, _, he⟩)))

/-- A compress command that answers only returns a pair (R145). -/
theorem exec_compress16_next {v : F64} {s t : State} (h : exec (.compress16 v) s = .next t) :
    ∃ x code, t = s.returnPair x code := by
  cases hc : compress16 v with
  | ok p => rw [exec_compress16_ok hc] at h; cases h; exact ⟨_, _, rfl⟩
  | error why => rw [exec_compress16_error hc] at h; cases h

theorem exec_compress32_next {v : F64} {s t : State} (h : exec (.compress32 v) s = .next t) :
    ∃ x code, t = s.returnPair x code := by
  cases hc : compress32 v with
  | ok p => rw [exec_compress32_ok hc] at h; cases h; exact ⟨_, _, rfl⟩
  | error why => rw [exec_compress32_error hc] at h; cases h

/-- All a decoded instruction can do when it answers: it begins its request, whose record is legal, or it makes none
and only returns a pair (R145, R163, R164). -/
theorem exec_decoded_cases {w : CommandWord} {i : Instr} {s t : State} (hd : decode w = .ok i)
    (h : exec i s = .next t) :
    (∃ q, Claims.requestOf i = some q ∧ (∀ code, (q.record code).Recorded) ∧ t = s.begin q) ∨
    (Claims.requestOf i = none ∧ ∃ v code, t = s.returnPair v code) := by
  rw [← exec_expand] at h
  rw [← requestOf_expand]
  rcases expand_of_decode hd with ⟨v, he⟩ | ⟨v, he⟩ | ⟨a, c, tag, hok, he⟩ | ⟨a, v, he⟩ | ⟨a, v, he⟩ <;>
    rw [he] at h ⊢
  · exact .inr ⟨rfl, exec_compress16_next h⟩
  · exact .inr ⟨rfl, exec_compress32_next h⟩
  · cases h
    exact .inl ⟨_, rfl, readRequest_recorded a hok, startReading_eq_begin ..⟩
  · cases h
    exact .inl ⟨_, rfl, writeRequest_recorded a v, startWriting_eq_begin ..⟩
  · cases h
    rcases startCheckedWriting_cases a v s with ⟨hv, ht⟩ | ⟨hv, ht⟩
    · exact .inr ⟨if_neg (by omega), .absent, errResolutionIndex, ht⟩
    · exact .inl ⟨_, if_pos hv, writeRequest_recorded a v, ht.trans (startWriting_eq_begin ..)⟩

/-- All an idle step can do when it answers: nothing, with no command presented; or take a word off the port and
begin its request, or return a pair. -/
theorem acceptCommand_cases {s t : State} (h : acceptCommand s = .next t) :
    (s.commands = [] ∧ t = s) ∨
    ∃ w rest i, s.commands = w :: rest ∧ decode w = .ok i ∧
      ((∃ q, Claims.requestOf i = some q ∧ (∀ code, (q.record code).Recorded) ∧
          t = ({ s with commands := rest } : State).begin q) ∨
       (Claims.requestOf i = none ∧
          ∃ v code, t = ({ s with commands := rest } : State).returnPair v code)) := by
  cases hc : s.commands with
  | nil =>
    simp only [acceptCommand, hc] at h
    cases h
    exact .inl ⟨rfl, rfl⟩
  | cons w rest =>
    cases hd : decode w with
    | error why => rw [acceptCommand_reserved hc hd] at h; cases h
    | ok i =>
      rw [acceptCommand_ok hc hd] at h
      exact .inr ⟨w, rest, i, rfl, hd, exec_decoded_cases hd h⟩

/-! ### A round of the loop that answers -/

/-- All a round of the loop can do when it answers, up to what the Transport port shows: it goes round again, ends
with an error, or decodes a response without exception and ends with code 0. -/
theorem pollRound_next_cases {s t : State} (h : pollRound s = .next t) :
    ∃ tr : Transport, t = { s with transport := tr } ∨
      (∃ code, t = ({ s with transport := tr } : State).raise code) ∨
      (∃ r w, s.transport.nextRound.1 = ⟨true, some r⟩ ∧ r.hasException = false ∧
        t = ({ s with
          transport := tr
          buffers := assembled s.pending w s.buffers } : State).finish errSuccess) := by
  rcases pollRound_cases s with ⟨-, ht⟩ | ⟨-, -, ht⟩ | ⟨r, -, -, -, ht⟩ | ⟨r, w, ha, hp, hx, -, ht⟩ |
    ⟨r, -, -, -, -, ht⟩ <;> rw [ht] at h <;> cases h
  · exact ⟨_, .inr (.inl ⟨_, rfl⟩)⟩
  · exact ⟨_, .inl rfl⟩
  · exact ⟨_, .inr (.inl ⟨_, rfl⟩)⟩
  · have hround : s.transport.nextRound.1 = ⟨true, some r⟩ := by rw [← ha, ← hp]
    exact ⟨_, .inr (.inr ⟨r, w, hround, hx, rfl⟩)⟩

end Sys2Proof.Machine
end

section
/-! Proof of O50 and O12: only the start of a request leads into a wait, and its record is legal. -/

namespace Sys2Proof.Machine

/-- In `Idle` the invariant says nothing. -/
theorem State.inv_of_idle {s : State} (h : s.fsm = .idle) : s.Inv := fun hf => by
  rw [h] at hf
  cases hf

/-- A request of a legal record begins with the invariant: taken, it is awaited with nothing returned. -/
theorem State.begin_inv (s : State) {q : Claims.Request} (hq : ∀ code, (q.record code).Recorded) :
    (s.begin q).Inv := by
  rcases s.begin_cases q with ⟨-, hv, hp⟩ | ⟨hi, -, -⟩
  · exact fun _ => ⟨hp ▸ hq _, hv⟩
  · exact State.inv_of_idle hi

/-- Settles O50, by what each kind of step can do: acceptance enters a wait by a legal request only, and a round that
stays in the wait touches neither the record nor the return port. -/
theorem stepKeepsInvariant : Obligations.StepKeepsInvariant := by
  intro s t hs h
  cases hf : s.fsm with
  | idle =>
    rw [step_idle hf] at h
    rcases acceptCommand_cases h with ⟨-, rfl⟩ | ⟨w, rest, i, -, -, ⟨q, -, hq, rfl⟩ | ⟨-, v, code, rfl⟩⟩
    · exact hs
    · exact State.begin_inv _ hq
    · exact State.inv_of_idle hf
  | awaitResponse =>
    rw [step_await hf] at h
    obtain ⟨tr, rfl | ⟨code, rfl⟩ | ⟨r, w, -, -, rfl⟩⟩ := pollRound_next_cases h
    · exact hs
    · exact State.inv_of_idle rfl
    · exact State.inv_of_idle rfl

/-- Settles O12: reset is in `Idle`. -/
theorem invariantAtReset : Obligations.InvariantAtReset := State.inv_of_idle rfl

end Sys2Proof.Machine
end

section
/-! Proofs of O37, O51 and O52: what the micro-operations leave in the four slots, and that no step but a successful
read's writes a slot (R31, R32). -/

namespace Sys2Proof.Machine

/-! ### The slots after a micro-operation (R112 to R116) -/

/-- A write's response decodes nothing (R116). -/
theorem assembled_of_write {p : PendingTransaction} (h : p.registersToRead = 0#8) (w : Window)
    (b : DecodedBuffers) : assembled p w b = b := if_pos h

/-- After a read's micro-operation every slot but the one of the width is zero (R31). -/
theorem assembled_other_slots {p : PendingTransaction} (h : p.registersToRead ≠ 0#8) (w : Window)
    (b : DecodedBuffers) :
    (p.responseWidth ≠ .w16 → (assembled p w b).int16 = Vector.replicate 16 0#16) ∧
    (p.responseWidth ≠ .u32 → (assembled p w b).uint32 = 0#32) ∧
    (p.responseWidth ≠ .s32 → (assembled p w b).int32 = 0#32) ∧
    (p.responseWidth ≠ .f64 → (assembled p w b).float64 = 0#64) := by
  unfold assembled
  rw [if_neg h]
  cases p.responseWidth <;> simp [zeroBuffers]

/-- `ASSEMBLE.16` stores zeros from the fill limit on (R112). -/
theorem assembled_int16_from_limit {p : PendingTransaction} (h : p.registersToRead ≠ 0#8)
    (hw : p.responseWidth = .w16) (w : Window) (b : DecodedBuffers) (j : Fin 16)
    (hj : p.registersToRead.toNat ≤ j.val) : (assembled p w b).int16[j] = 0#16 := by
  simp [assembled, h, hw, fillInt16, hj]

/-- Every micro-operation keeps at most one slot non-zero (R31). -/
theorem assembled_exclusive {p : PendingTransaction} {b : DecodedBuffers} (hb : b.Exclusive)
    (w : Window) : (assembled p w b).Exclusive := by
  by_cases h : p.registersToRead = 0#8
  · rwa [assembled_of_write h]
  · obtain ⟨h16, hu, hs, hf⟩ := assembled_other_slots h w b
    cases hw : p.responseWidth <;> rw [hw] at h16 hu hs hf
    case w16 => exact .inl ⟨hs (by decide), hu (by decide), hf (by decide)⟩
    case s32 => exact .inr (.inl ⟨h16 (by decide), hu (by decide), hf (by decide)⟩)
    case u32 => exact .inr (.inr (.inl ⟨h16 (by decide), hs (by decide), hf (by decide)⟩))
    case f64 => exact .inr (.inr (.inr ⟨h16 (by decide), hs (by decide), hu (by decide)⟩))

/-! ### Who writes the slots (R32) -/

theorem acceptCommand_buffers {s t : State} (h : acceptCommand s = .next t) :
    t.buffers = s.buffers := by
  rcases acceptCommand_cases h with ⟨-, rfl⟩ | ⟨w, rest, i, -, -, ⟨q, -, -, rfl⟩ | ⟨-, v, code, rfl⟩⟩
  · rfl
  · exact State.begin_buffers ..
  · rfl

/-- A step keeps the slots, or runs the micro-operation of a response without exception and ends with code 0. -/
theorem step_buffers {s t : State} (h : step s = .next t) :
    t.buffers = s.buffers ∨
    (s.fsm = .awaitResponse ∧ t.fsm = .idle ∧ t.ret = ⟨true, errSuccess, .absent⟩ ∧
      (∃ r, s.transport.nextRound.1 = ⟨true, some r⟩ ∧ r.hasException = false) ∧
      ∃ w, t.buffers = assembled s.pending w s.buffers) := by
  cases hf : s.fsm with
  | idle =>
    rw [step_idle hf] at h
    exact .inl (acceptCommand_buffers h)
  | awaitResponse =>
    rw [step_await hf] at h
    obtain ⟨tr, rfl | ⟨code, rfl⟩ | ⟨r, w, hr, hx, rfl⟩⟩ := pollRound_next_cases h
    · exact .inl rfl
    · exact .inl rfl
    · exact .inr ⟨rfl, rfl, rfl, ⟨r, hr, hx⟩, w, rfl⟩

/-- Settles O51: the slots are as before, or as a micro-operation leaves them. -/
theorem stepKeepsBuffersExclusive : Obligations.StepKeepsBuffersExclusive := by
  intro s t hs h
  rcases step_buffers h with hb | ⟨-, -, -, -, w, hb⟩
  · rwa [hb]
  · rw [hb]
    exact assembled_exclusive hs w

/-- Settles O52: a change is a micro-operation's, and that of a write changes nothing. -/
theorem onlySuccessfulReadsChangeBuffers : Obligations.OnlySuccessfulReadsChangeBuffers := by
  intro s t h hne
  rcases step_buffers h with hb | ⟨hf, hi, hret, hr, w, hb⟩
  · exact absurd hb hne
  · have hread : s.pending.registersToRead ≠ 0#8 := fun h0 =>
      hne (hb.trans (assembled_of_write h0 w s.buffers))
    exact ⟨hf, hread, hi, hret, hr⟩

/-! ### Right after a successful read (R31) -/

/-- A round with a response without exception that is long enough ends the wait with the slots the micro-operation
leaves and the request fields as they were (R169). -/
theorem pollRound_success {s : State} {r : Response}
    (hround : s.transport.nextRound.1 = ⟨true, some r⟩) (hx : r.hasException = false)
    (hlen : s.pending.registersToRead.toNat ≤ r.registers.length) :
    ∃ t w, pollRound s = .next t ∧
      t.pending = { s.pending with lastErrorCode := errSuccess } ∧
      t.buffers = assembled s.pending w s.buffers := by
  rw [pollRound_response (r := r) (by rw [hround]) (by rw [hround]), respond_success _ hx]
  exact ⟨_, _, succeed_eq (fillWindow_some hlen), rfl, rfl⟩

/-- Settles O37, by what the micro-operation leaves in each slot. -/
theorem successfulReadIsExclusive : Obligations.SuccessfulReadIsExclusive := by
  intro s r rs hf hrounds hx hread hlen
  have hround : s.transport.nextRound.1 = ⟨true, some r⟩ := by
    rw [Transport.nextRound_listed hrounds]
  obtain ⟨t, w, ht, hp, hb⟩ := pollRound_success hround hx hlen
  obtain ⟨h16, hu, hs, hf64⟩ := assembled_other_slots hread w s.buffers
  refine ⟨t, (step_await hf).trans ht, ?_⟩
  rw [hp, hb]
  exact ⟨h16, hu, hs, hf64, fun hw => assembled_int16_from_limit hread hw w s.buffers⟩

end Sys2Proof.Machine
end

section
/-! Proofs of O53 and O54: who writes the record of the pending transaction (R27, R28). -/

namespace Sys2Proof.Machine

/-- A round of the loop leaves the record as it is, or ends the transaction with a code it stores and returns
(R166 to R169). -/
theorem pollRound_pending {s t : State} (h : pollRound s = .next t) :
    t.pending = s.pending ∨
    ∃ code, t.fsm = .idle ∧ t.ret = ⟨true, code, .absent⟩ ∧
      t.pending = { s.pending with lastErrorCode := code } := by
  obtain ⟨tr, rfl | ⟨code, rfl⟩ | ⟨r, w, -, -, rfl⟩⟩ := pollRound_next_cases h
  · exact .inl rfl
  · exact .inr ⟨code, rfl, rfl, rfl⟩
  · exact .inr ⟨errSuccess, rfl, rfl, rfl⟩

/-- Settles O53: acceptance writes the fields as the request begins or not at all, and a round of the loop never. -/
theorem requestFieldsChangeOnlyAtRecord : Obligations.RequestFieldsChangeOnlyAtRecord := by
  intro s t h
  cases hf : s.fsm with
  | idle =>
    rw [step_idle hf] at h
    rcases acceptCommand_cases h with ⟨hc, rfl⟩ | ⟨w, rest, i, hc, hd, hexec⟩
    · exact ⟨by simp [hc], .inl ⟨rfl, rfl, rfl⟩⟩
    rcases hexec with ⟨q, hq, -, rfl⟩ | ⟨hq, v, code, rfl⟩
    · have hp := State.begin_pending { s with commands := rest } q
      refine ⟨?_, .inr ⟨rfl, w, rest, i, q, hc, hd, hq, hp⟩⟩
      intro w' rest' i' q' _ hc' hd' hq'
      obtain ⟨rfl, rfl⟩ := List.cons.inj (hc.symm.trans hc')
      obtain rfl := Except.ok.inj (hd.symm.trans hd')
      obtain rfl := Option.some.inj (hq.symm.trans hq')
      exact hp
    · refine ⟨?_, .inl ⟨rfl, rfl, rfl⟩⟩
      intro w' rest' i' q' _ hc' hd' hq'
      obtain ⟨rfl, rfl⟩ := List.cons.inj (hc.symm.trans hc')
      obtain rfl := Except.ok.inj (hd.symm.trans hd')
      cases hq.symm.trans hq'
  | awaitResponse =>
    rw [step_await hf] at h
    refine ⟨by simp, .inl ?_⟩
    rcases pollRound_pending h with hp | ⟨code, -, -, hp⟩ <;> rw [hp] <;> exact ⟨rfl, rfl, rfl⟩

/-- Settles O54: the code is written by a busy start and by the round that ends the wait, which return it. -/
theorem lastErrorCodeIsTheReturnedCode : Obligations.LastErrorCodeIsTheReturnedCode := by
  intro s t h hne
  cases hf : s.fsm with
  | idle =>
    rw [step_idle hf] at h
    rcases acceptCommand_cases h with ⟨-, rfl⟩ | ⟨w, rest, i, -, -, ⟨q, -, -, rfl⟩ | ⟨-, v, code, rfl⟩⟩
    · exact absurd rfl hne
    · rcases State.begin_cases { s with commands := rest } q with ⟨-, -, hp⟩ | ⟨hi, hret, hp⟩
      · exact absurd (congrArg (·.lastErrorCode) hp) hne
      · exact ⟨hi, by rw [hret, hp]; rfl⟩
    · exact absurd rfl hne
  | awaitResponse =>
    rw [step_await hf] at h
    rcases pollRound_pending h with hp | ⟨code, hi, hret, hp⟩
    · exact absurd (congrArg (·.lastErrorCode) hp) hne
    · exact ⟨hi, by rw [hret, hp]⟩

end Sys2Proof.Machine
end

section
/-! Proof of O13: the read ports in each mode (R36). -/

namespace Sys2Proof.Machine

theorem State.readPort_idle {s : State} (h : s.fsm = .idle) (p : ReadPort) :
    s.readPort p = some (s.element p) := if_pos h

theorem State.readPort_awaitResponse {s : State} (h : s.fsm = .awaitResponse) (p : ReadPort) :
    s.readPort p = none := if_neg (by simp [h])

/-- Settles O13, by mode: in `Idle` each port shows its element. -/
theorem readPortsShowTheState : Obligations.ReadPortsShowTheState := by
  intro s
  refine ⟨State.readPort_awaitResponse, fun h => ?_⟩
  simp only [State.readPort_idle h]
  exact ⟨rfl, rfl, rfl, rfl, fun _ => rfl, rfl, rfl, rfl⟩

end Sys2Proof.Machine
end

section
/-! Proofs of O24, O29 and O60: a wait lasts over its waiting rounds and ends in the first other one, by the deadline or
by a response (R64 to R66, R167 to R169, R176). -/

namespace Sys2Proof.Machine

/-! ### Waiting rounds (R176) -/

theorem Round.waiting_iff (r : Round) :
    r.waiting = true ↔ r.awaiting = true ∧ r.poll = none := by
  simp [Round.waiting]

/-- Making calls changes none of the answers to come. -/
@[simp] theorem Transport.upcoming_called (t : Transport) (cs : List Call) (k : Nat) :
    (t.called cs).upcoming k = t.upcoming k := by
  induction k generalizing t with
  | zero => simp only [Transport.upcoming, Transport.nextRound_called]
  | succ k ih => simp only [Transport.upcoming, Transport.nextRound_called, ih]

/-- After `k` waiting rounds only the Transport port differs, and its next round is the `k`-th that was to come. -/
theorem run_waiting {s : State} {k : Nat} (hf : s.fsm = .awaitResponse)
    (hw : ∀ j, j < k → (s.transport.upcoming j).waiting = true) :
    ∃ tr : Transport, run k s = .next { s with transport := tr } ∧
      tr.nextRound.1 = s.transport.upcoming k := by
  induction k generalizing s with
  | zero => exact ⟨s.transport, rfl, rfl⟩
  | succ k ih =>
    obtain ⟨ha, hp⟩ := (Round.waiting_iff _).1 (hw 0 (Nat.succ_pos k))
    rw [run_succ_next k ((step_await hf).trans (pollRound_waiting ha hp))]
    obtain ⟨tr, hrun, hnext⟩ := ih
      (s := ({ s with transport := s.transport.nextRound.2 } : State).called [.awaiting, .poll])
      hf fun j hj => by
        rw [State.called_transport, Transport.upcoming_called]
        exact hw (j + 1) (Nat.succ_lt_succ hj)
    exact ⟨tr, hrun, hnext.trans (Transport.upcoming_called ..)⟩

/-- One step more runs the `k`-th round, in a state that differs at the Transport port only. -/
theorem run_waiting_then_round {s : State} {k : Nat} (hf : s.fsm = .awaitResponse)
    (hw : ∀ j, j < k → (s.transport.upcoming j).waiting = true) :
    ∃ tr : Transport, tr.nextRound.1 = s.transport.upcoming k ∧
      run (k + 1) s = pollRound { s with transport := tr } := by
  obtain ⟨tr, hrun, hnext⟩ := run_waiting hf hw
  rw [run_add_next 1 hrun, run_one]
  exact ⟨tr, hnext, step_await hf⟩

/-! ### The round that ends the wait (R167 to R169) -/

/-- A pulled Response that has an exception, or is long enough, ends the command with its code or with 0. -/
theorem pollRound_response_ends {s : State} {r : Response}
    (ha : s.transport.nextRound.1.awaiting = true) (hp : s.transport.nextRound.1.poll = some r)
    (hlen : r.hasException = false → s.pending.registersToRead.toNat ≤ r.registers.length) :
    ∃ t, pollRound s = .next t ∧ t.fsm = .idle ∧
      t.ret = ⟨true, if r.hasException then r.exceptionCode else 0#8, .absent⟩ ∧
      t.pending.lastErrorCode = t.ret.code := by
  rw [pollRound_response ha hp]
  cases hx : r.hasException with
  | true => exact ⟨_, respond_exception _ hx, rfl, rfl, rfl⟩
  | false =>
    rw [respond_success _ hx]
    exact ⟨_, succeed_eq (fillWindow_some (hlen hx)), rfl, rfl, rfl⟩

/-- A round that is no waiting one ends the command, if a Response in it has the shape of R65. -/
theorem pollRound_ends {s : State} (hw : s.transport.nextRound.1.waiting = false)
    (hlen : ∀ r, s.transport.nextRound.1.poll = some r → r.hasException = false →
      s.pending.registersToRead.toNat ≤ r.registers.length) :
    ∃ t, pollRound s = .next t ∧ t.fsm = .idle ∧ t.ret.valid = true := by
  cases ha : s.transport.nextRound.1.awaiting with
  | false => exact ⟨_, pollRound_timeout ha, rfl, rfl⟩
  | true =>
    cases hp : s.transport.nextRound.1.poll with
    | none => simp [Round.waiting, ha, hp] at hw
    | some r =>
      obtain ⟨t, ht, hi, hret, -⟩ := pollRound_response_ends ha hp (hlen r hp)
      exact ⟨t, ht, hi, by rw [hret]⟩

/-- Settles O29: the first round that is no waiting one ends the wait. -/
theorem liveTransportEndsTheWait : Obligations.LiveTransportEndsTheWait := by
  intro s hf hlive hshaped
  have hbefore : ∀ j, j < Nat.find hlive → (s.transport.upcoming j).waiting = true := fun j hj => by
    simpa using Nat.find_min hlive hj
  obtain ⟨tr, hnext, hrun⟩ := run_waiting_then_round hf hbefore
  obtain ⟨t, ht, hi, hv⟩ := pollRound_ends (s := { s with transport := tr })
    (by simpa only [hnext] using Nat.find_spec hlive)
    (by simpa only [hnext] using hshaped (Nat.find hlive))
  exact ⟨_, t, hrun.trans ht, hi, hv⟩

/-! ### The awaiting contract (R64) -/

/-- Under the contract `T.awaiting` answers true in the round after waiting ones, before the deadline. -/
theorem Transport.KeepsAwaiting.awaiting {t : Transport} {deadline : Option Nat} {k : Nat}
    (h : t.KeepsAwaiting deadline) (hw : ∀ j, j < k → (t.upcoming j).waiting = true)
    (hd : ∀ d, deadline = some d → k < d) : (t.upcoming k).awaiting = true := by
  rw [← Bool.not_eq_false, h k hw]
  rintro ⟨d, hdl, hle⟩
  exact absurd (hd d hdl) (Nat.not_lt.2 hle)

/-- Under the contract every round up to the deadline is a waiting one until a Response comes. -/
theorem Transport.KeepsAwaiting.waiting {t : Transport} {deadline : Option Nat} {k : Nat}
    (h : t.KeepsAwaiting deadline) (hp : ∀ j, j < k → (t.upcoming j).poll = none)
    (hd : ∀ d, deadline = some d → k ≤ d) : ∀ j, j < k → (t.upcoming j).waiting = true := by
  intro j hj
  induction j using Nat.strong_induction_on with
  | _ j ih =>
    have ha := h.awaiting (fun i hi => ih i hi (hi.trans hj)) fun d hdl => hj.trans_le (hd d hdl)
    exact (Round.waiting_iff _).2 ⟨ha, hp j hj⟩

/-- Settles O60: the rounds before the Response, or before the deadline, are waiting ones; the next one ends the
command. -/
theorem awaitingContractDecidesTheEnd : Obligations.AwaitingContractDecidesTheEnd := by
  intro s deadline hf hc
  refine ⟨fun k r hnone hsome hd hlen => ?response, fun d hd hnone => ?timeout,
    fun hd hnone n => ?hang⟩
  case response =>
    have hw := hc.waiting hnone fun d hdl => (hd d hdl).le
    obtain ⟨tr, hnext, hrun⟩ := run_waiting_then_round hf hw
    rw [hrun]
    exact pollRound_response_ends (s := { s with transport := tr })
      (by rw [hnext]; exact hc.awaiting hw hd) (by rw [hnext]; exact hsome) hlen
  case timeout =>
    have hw := hc.waiting hnone fun e he => (Option.some.inj (hd.symm.trans he)).le
    obtain ⟨tr, hnext, hrun⟩ := run_waiting_then_round hf hw
    have hstop : tr.nextRound.1.awaiting = false := by
      rw [hnext]
      exact (hc d hw).2 ⟨d, hd, le_rfl⟩
    exact ⟨_, hrun.trans (pollRound_timeout hstop), rfl, rfl, rfl, rfl⟩
  case hang =>
    have hw := hc.waiting (k := n) (fun j _ => hnone j) (by simp [hd])
    obtain ⟨tr, hrun, -⟩ := run_waiting hf hw
    exact ⟨_, hrun, hf, rfl⟩

/-! ### A response without the shape of R65 -/

/-- A Response shorter than the request is refused (R65, U6). -/
theorem succeed_short {r : Response} {s : State}
    (h : r.registers.length < s.pending.registersToRead.toNat) :
    succeed r s = .refused .shortResponse := by
  simp only [succeed, fillWindow_none h]

/-- Settles O24: the window of a short response is not filled. -/
theorem shortResponseIsRefused : Obligations.ShortResponseIsRefused := by
  intro s r rs hf hrounds hx hlen
  have hround : s.transport.nextRound.1 = ⟨true, some r⟩ := by
    rw [Transport.nextRound_listed hrounds]
  rw [step_await hf, pollRound_response (r := r) (by rw [hround]) (by rw [hround]), respond_success _ hx]
  exact succeed_short hlen

end Sys2Proof.Machine
end

section
/-! Proofs of O18 and O55: beginning a request makes its start call and no other, and no other step makes a start call
(R63, R74, R165). -/

namespace Sys2Proof.Machine

@[simp] theorem State.begin_commands (s : State) (q : Claims.Request) :
    (s.begin q).commands = s.commands := by
  simp [State.begin]

/-- Beginning a request makes its start call (R165). -/
@[simp] theorem State.begin_calls (s : State) (q : Claims.Request) :
    (s.begin q).transport.calls = s.transport.calls ++ [q.call] := by
  simp [State.begin]

/-- An instruction that makes a request begins it. -/
theorem exec_of_requestOf {i : Instr} {q : Claims.Request} (h : Claims.requestOf i = some q)
    (s : State) : exec i s = .next (s.begin q) := by
  rw [← exec_expand]
  unfold Claims.requestOf at h
  cases he : i.expand with
  | read a c w =>
    obtain rfl : Claims.readRequest a c w = q := by simpa [he] using h
    exact congrArg _ (startReading_eq_begin ..)
  | write a v =>
    obtain rfl : Claims.writeRequest a v = q := by simpa [he] using h
    exact congrArg _ (startWriting_eq_begin ..)
  | writeChk a v =>
    obtain ⟨hv, rfl⟩ : v.toNat ≤ 8 ∧ Claims.writeRequest a v = q := by simpa [he] using h
    rcases startCheckedWriting_cases a v s with ⟨hv', -⟩ | ⟨-, ht⟩
    · exact absurd hv (Nat.not_le.2 hv')
    · exact congrArg _ (ht.trans (startWriting_eq_begin ..))
  | _ => simp [he] at h

/-- Settles O18: the request begins, and is taken or busy, whatever the answer is. -/
theorem freeStartAnswerCompletes : Obligations.FreeStartAnswerCompletes := by
  intro i q s hq _
  refine ⟨_, exec_of_requestOf hq s, s.begin_buffers q, s.begin_commands q, s.begin_calls q, ?_⟩
  rcases s.begin_cases q with ⟨hf, -, hp⟩ | ⟨hf, hret, hp⟩
  · exact .inl ⟨hf, hp⟩
  · exact .inr ⟨hf, hp, hret⟩

/-! ### The calls a step makes (R173) -/

/-- An idle step makes at most one call. -/
theorem acceptCommand_calls {s t : State} (h : acceptCommand s = .next t) :
    ∃ cs, t.transport.calls = s.transport.calls ++ cs ∧ cs.length ≤ 1 := by
  rcases acceptCommand_cases h with ⟨-, rfl⟩ | ⟨w, rest, i, -, -, ⟨q, -, -, rfl⟩ | ⟨-, v, code, rfl⟩⟩
  · exact ⟨[], by simp⟩
  · exact ⟨[q.call], State.begin_calls .., le_rfl⟩
  · exact ⟨[], by simp⟩

theorem countP_isStart_registerCalls (n : Nat) : (registerCalls n).countP Call.isStart = 0 := by
  simp [registerCalls, List.countP_eq_zero, Call.isStart]

/-- A round of the loop makes calls, none of them a start call. -/
theorem pollRound_calls {s t : State} (h : pollRound s = .next t) :
    ∃ cs, t.transport.calls = s.transport.calls ++ cs ∧ cs.countP Call.isStart = 0 := by
  rcases pollRound_cases s with ⟨-, ht⟩ | ⟨-, -, ht⟩ | ⟨r, -, -, -, ht⟩ | ⟨r, w, -, -, -, -, ht⟩ |
    ⟨r, -, -, -, -, ht⟩ <;> rw [ht] at h <;> cases h
  · exact ⟨[.awaiting], by simp, rfl⟩
  · exact ⟨[.awaiting, .poll], by simp, rfl⟩
  · exact ⟨[.awaiting, .poll, .hasException, .exceptionCode], by simp, rfl⟩
  · refine ⟨[.awaiting, .poll, .hasException] ++ registerCalls s.pending.registersToRead.toNat,
      by simp, ?_⟩
    rw [List.countP_append, countP_isStart_registerCalls]
    rfl

/-- The requests grow by the start calls among the calls made. -/
theorem Transport.requests_of_calls {t u : Transport} {cs : List Call} (h : u.calls = t.calls ++ cs) :
    u.requests = t.requests + cs.countP Call.isStart := by
  rw [Transport.requests, h, List.countP_append, Transport.requests]

/-- Settles O55: an idle step makes at most one call, and a round of the loop no start call. -/
theorem oneRequestAtATime : Obligations.OneRequestAtATime := by
  intro s t h
  cases hf : s.fsm with
  | idle =>
    rw [step_idle hf] at h
    obtain ⟨cs, hcs, hlen⟩ := acceptCommand_calls h
    have hstarts : cs.countP Call.isStart ≤ 1 := List.countP_le_length.trans hlen
    rw [Transport.requests_of_calls hcs]
    exact ⟨⟨cs, hcs⟩, Nat.add_le_add_left hstarts _, by simp⟩
  | awaitResponse =>
    rw [step_await hf] at h
    obtain ⟨cs, hcs, hstarts⟩ := pollRound_calls h
    rw [Transport.requests_of_calls hcs, hstarts]
    exact ⟨⟨cs, hcs⟩, Nat.le_succ _, fun _ => rfl⟩

end Sys2Proof.Machine
end

section
/-! Proofs of O2, O1 and O3: the encoder writes and the decoder reads the word of what an instruction expands to, and a
name adds nothing to either (R81, R95, R96). -/

namespace Sys2Proof

/-! ### Expansions (R95, R180) -/

/-- An instruction is encoded in the code of what it expands to. -/
theorem encode_expand (i : Instr) : encode i.expand = encode i := by
  cases i <;> rfl

/-- Expanding does not change the window of a micro-operation. -/
theorem windowOperand_expand (i : Instr) : i.expand.windowOperand = i.windowOperand := by
  cases i <;> rfl

theorem expand_expand (i : Instr) : i.expand.expand = i.expand :=
  expandIn_expandIn accessorMap i

/-- The command a word stands for decodes under its name. -/
theorem decode_of_decodeBase {w : CommandWord} {i : Instr} (h : decodeBase w = .ok i) :
    decode w = .ok i.named :=
  (decodeIn_ok_iff accessorMap w i.named).2 ⟨i, h, rfl⟩

/-! ### Format C (R81) -/

theorem fieldUnit_packC (unit : BitVec 8) (value : F64) : fieldUnit (packC unit value) = unit :=
  extractLsb'_high unit value

theorem fieldValue_packC (unit : BitVec 8) (value : F64) : fieldValue (packC unit value) = value :=
  extractLsb'_low unit value

/-- A word is its unit and its operand. -/
theorem packC_of_fields (w : CommandWord) : packC (fieldUnit w) (fieldValue w) = w :=
  (BitVec.extractLsb'_append_extractLsb'_eq_extractLsb' rfl).trans BitVec.extractLsb'_eq_self

theorem decodeBase_packC16 (value : F64) :
    decodeBase (packC 0x01#8 value) = .ok (.compress16 value) := by
  simp [decodeBase, fieldUnit_packC, fieldValue_packC]

theorem decodeBase_packC32 (value : F64) :
    decodeBase (packC 0x02#8 value) = .ok (.compress32 value) := by
  simp [decodeBase, fieldUnit_packC, fieldValue_packC]

/-! ### Encoding a decoded word -/

/-- A `READ` is encoded in the one word that decodes to it. -/
theorem encode_of_decodeRead {w : CommandWord} {i : Instr} (hu : fieldUnit w = 0#8)
    (hf : fieldFc w = 4#8) (h : decodeRead w = .ok i) : encode i = .command w := by
  obtain ⟨tag, ht, -, hv, hc, hz, rfl⟩ := decodeRead_ok h
  have hw := packT_of_fields w hu hz
  rw [hf, ht, hv, hc] at hw
  exact congrArg Code.command hw.symm

/-- So are a `WRITE` and a `WRITE.CHK`. -/
theorem encode_of_decodeWrite {w : CommandWord} {i : Instr} (hu : fieldUnit w = 0#8)
    (hf : fieldFc w = 6#8) (h : decodeWrite w = .ok i) : encode i = .command w := by
  obtain ⟨ht, hn, hz, ⟨hc, rfl⟩ | ⟨hc, rfl⟩⟩ := decodeWrite_ok h <;>
  · have hw := packT_of_fields w hu hz
    rw [hf, hn, ht, hc] at hw
    exact congrArg Code.command hw.symm

/-- Every base command is encoded in the one word that decodes to it (R81, R89). -/
theorem encode_of_decodeBase {w : CommandWord} {i : Instr} (h : decodeBase w = .ok i) :
    encode i = .command w := by
  rcases decodeBase_ok h with ⟨hu, rfl⟩ | ⟨hu, rfl⟩ | ⟨hu, hf, hr⟩ | ⟨hu, hf, hw⟩
  · exact congrArg Code.command (hu ▸ packC_of_fields w)
  · exact congrArg Code.command (hu ▸ packC_of_fields w)
  · exact encode_of_decodeRead hu hf hr
  · exact encode_of_decodeWrite hu hf hw

/-- Settles O2: a decoded instruction has the code of the base command it expands to, which is the word itself. -/
theorem encodeOfDecode : Obligations.EncodeOfDecode := by
  intro w i h
  rw [← encode_expand]
  exact encode_of_decodeBase (Machine.decodeBase_expand h)

/-! ### Decoding an encoded instruction -/

/-- Legal operands decode to the name of what was encoded, by the base command or micro-operation it expands to. -/
theorem decodeCode_encode {i : Instr} (h : i.operandsOk = true) :
    decodeCode (encode i) i.windowOperand = .ok i.named := by
  have hbase := expand_expand i
  have hname : i.expand.named = i.named := namedIn_expandIn accessorMap i
  rw [← encode_expand, ← windowOperand_expand, ← hname]
  unfold Instr.operandsOk at h
  cases he : i.expand with
  | read a c tag =>
    rw [he] at h
    exact decode_of_decodeBase ((decodeBase_word_read a c tag 0#16).trans (if_pos h))
  | write a v => exact decode_of_decodeBase (decodeBase_word_write a v)
  | writeChk a v => exact decode_of_decodeBase (decodeBase_word_writeChk a v)
  | compress16 v => exact decode_of_decodeBase (decodeBase_packC16 v)
  | compress32 v => exact decode_of_decodeBase (decodeBase_packC32 v)
  | assemble16 w => rfl
  | assembleU32 w => rfl
  | assembleS32 w => rfl
  | assembleF64 w => rfl
  | assembleNone => rfl
  | _ => -- no accessor is its own expansion
    simp [he] at hbase

/-- Settles O1: a well-formed instruction has legal operands and is its own name. -/
theorem decodeOfEncode : Obligations.DecodeOfEncode := by
  intro i h
  obtain ⟨hops, hname⟩ : i.operandsOk = true ∧ i.named = i := by
    simpa [Instr.wellFormed, Instr.canonical] using h
  rw [decodeCode_encode hops, hname]

/-- A table has no part in refusing a word (R180). -/
theorem decodeIn_error_iff (m : AccessorMap) (w : CommandWord) (e : Reserved) :
    decodeIn m w = .error e ↔ decodeBase w = .error e := by
  unfold decodeIn
  cases decodeBase w <;> simp

/-- A table has no part in accepting a word (R180). -/
theorem exists_decodeIn_ok_iff (m : AccessorMap) (w : CommandWord) :
    (∃ i, decodeIn m w = .ok i) ↔ ∃ j, decodeBase w = .ok j := by
  simp only [decodeIn_ok_iff]
  exact ⟨fun ⟨_, j, hj, _⟩ => ⟨j, hj⟩, fun ⟨j, hj⟩ => ⟨_, j, hj, rfl⟩⟩

/-- Under every table an accepted word expands to its base command (R180). -/
theorem decodeBase_expandIn {m : AccessorMap} {w : CommandWord} {i : Instr}
    (h : decodeIn m w = .ok i) : decodeBase w = .ok (i.expandIn m) := by
  obtain ⟨j, hj, rfl⟩ := (decodeIn_ok_iff m w i).1 h
  rw [expandIn_namedIn, expandIn_of_decodeBase m hj, hj]

/-- Settles O3: decoding finds the base command before a table names it. -/
theorem decodeUpToName : Obligations.DecodeUpToName := by
  refine ⟨fun i h => ⟨decodeCode_encode h, named_expand i⟩, fun m w => ⟨fun e => ?_, ?_, ?_⟩⟩
  · exact (decodeIn_error_iff m w e).trans (decodeIn_error_iff accessorMap w e).symm
  · exact (exists_decodeIn_ok_iff m w).trans (exists_decodeIn_ok_iff accessorMap w).symm
  · intro i j hi hj
    exact Except.ok.inj ((decodeBase_expandIn hi).symm.trans (Machine.decodeBase_expand hj))

end Sys2Proof
end

section
/-! Proofs of O4 and O5: the words R95 and 95_test_vectors.md write out. -/

namespace Sys2Proof

/-- The word of a documented row of the model's table decodes to the row's name. -/
theorem decode_shown (n : ShownAccessor) (v : RegWord) :
    decode ((accessorMap.shown n).word v) = .ok (n.instr v) := by
  have h : decodeBase ((accessorMap.shown n).word v) = .ok ((accessorMap.shown n).instr v) := by
    cases n with
    | rdAlarms | rdSerial | rdFwdvolF64 | rdFwdvolU32 | rdNetvolF64 | rdNetvolS32 =>
      exact decodeBase_word_read ..
    | wrVolres | wrFlowres => exact decodeBase_word_writeChk ..
    | _ => exact decodeBase_word_write ..
  rw [decode_of_decodeBase h, named_row]

/-- So does the word as R95 writes it out, if it is the row's. -/
theorem decode_written (n : ShownAccessor) {v : RegWord} {w : CommandWord}
    (h : (accessorMap.shown n).word v = w) : decode w = .ok (n.instr v) := h ▸ decode_shown n v

/-- Settles O4: each word is its row's, and a row's word decodes to the row's name. -/
theorem accessorWordsDecode : Obligations.AccessorWordsDecode := by
  refine ⟨⟨decode_written .rdAlarms (v := 0#16) rfl, expand_rdAlarms⟩,
    ⟨decode_written .rdSerial (v := 0#16) rfl, expand_rdSerial⟩,
    ⟨decode_written .rdFwdvolF64 (v := 0#16) rfl, expand_rdFwdvolF64⟩,
    ⟨decode_written .rdFwdvolU32 (v := 0#16) rfl, expand_rdFwdvolU32⟩,
    ⟨decode_written .rdNetvolF64 (v := 0#16) rfl, expand_rdNetvolF64⟩,
    ⟨decode_written .rdNetvolS32 (v := 0#16) rfl, expand_rdNetvolS32⟩, fun v => ?_⟩
  exact ⟨⟨decode_written .wrWeekday (word_write 0x01#8 v), expand_wrWeekday v⟩,
    ⟨decode_written .wrDay (word_write 0x02#8 v), expand_wrDay v⟩,
    ⟨decode_written .wrMonth (word_write 0x03#8 v), expand_wrMonth v⟩,
    ⟨decode_written .wrYear (word_write 0x04#8 v), expand_wrYear v⟩,
    ⟨decode_written .wrHours (word_write 0x05#8 v), expand_wrHours v⟩,
    ⟨decode_written .wrMinutes (word_write 0x06#8 v), expand_wrMinutes v⟩,
    ⟨decode_written .wrVolres (word_writeChk 0x07#8 v), expand_wrVolres v⟩,
    ⟨decode_written .wrFlowres (word_writeChk 0x08#8 v), expand_wrFlowres v⟩⟩

/-- Settles O5: the decoder computes each of these closed words; the selectors do not look at the window. -/
theorem sampleWordsDecode : Obligations.SampleWordsDecode := by
  refine ⟨?_, ?_, ?_, ?_, ?_, ?_, ?_, ?_, ?_, ?_, ?_, ?_, ?_, ?_, ?_, ?_, ?_, ?_,
    fun w => ⟨rfl, rfl, rfl, rfl, rfl⟩⟩
  all_goals decide

end Sys2Proof
end

section
/-! Proof of O6: the words the decoder turns away are those of the list of R89, case by case, and an accepted command is
never refused as a reserved one. -/

namespace Sys2Proof

/-- The bytes that stand for no tag are those R89 (c) lists. -/
theorem tagOfByte_eq_none_iff (b : BitVec 8) :
    tagOfByte b = none ↔ b ≠ 0x10#8 ∧ b ≠ 0x20#8 ∧ b ≠ 0xE0#8 ∧ b ≠ 0xC0#8 := by
  unfold tagOfByte
  split_ifs <;> simp_all

/-- The words per value as R89 (d) reads them off the tag byte. -/
def wordsPerValue (b : BitVec 8) : Nat := if b = 0x10#8 then 1 else if b = 0xC0#8 then 4 else 2

/-- On a legal byte they are its tag's (R86). -/
@[simp] theorem wordsPerValue_byte (tag : WidthTag) : wordsPerValue tag.byte = tag.regsPerValue := by
  cases tag <;> rfl

theorem regsPerValue_pos (tag : WidthTag) : 0 < tag.regsPerValue := by
  cases tag <;> decide

/-- The bound of R88 fails for a read of nothing and for one of more than 16 words (R89 d). -/
theorem not_readWordsOk_iff (c : BitVec 8) (tag : WidthTag) :
    ¬readWordsOk c tag = true ↔ c = 0#8 ∨ 16 < c.toNat * tag.regsPerValue := by
  have hpos : 1 ≤ c.toNat * tag.regsPerValue ↔ ¬c.toNat = 0 := by
    rw [Nat.one_le_iff_ne_zero, Nat.mul_ne_zero_iff]
    exact and_iff_left (regsPerValue_pos tag).ne'
  rw [Machine.readWordsOk_iff, readWords, hpos, ← BitVec.toNat_inj]
  simp only [BitVec.toNat_ofNat]
  omega

/-- Of function code 0x04, the words the decoder turns away are those of R89 (c), (d), (e) and (g). -/
theorem decodeRead_error_iff (w : CommandWord) :
    (∃ e, decodeRead w = .error e) ↔
      tagOfByte (fieldTag w) = none ∨
      (fieldCount w = 0#8 ∨ 16 < (fieldCount w).toNat * wordsPerValue (fieldTag w)) ∨
      (fieldWdata w ≠ 0#16 ∨ fieldChk w = 1#1) ∨ fieldZero w ≠ 0#15 := by
  have hchk : fieldChk w = 1#1 ↔ ¬fieldChk w = 0#1 := by grind
  cases ht : tagOfByte (fieldTag w) with
  | none => simp [decodeRead, ht]
  | some tag =>
    rw [tagOfByte_eq_some ht, wordsPerValue_byte, ← not_readWordsOk_iff, hchk]
    simp only [decodeRead, ht]
    split_ifs with hlen hrest hz
    · simp [hlen, hrest, hz]
    · exact iff_of_true ⟨_, rfl⟩ (.inr (.inr (.inr hz)))
    · exact iff_of_true ⟨_, rfl⟩ (.inr (.inr (.inl (not_and_or.1 hrest))))
    · exact iff_of_true ⟨_, rfl⟩ (.inr (.inl hlen))

/-- Of function code 0x06, those of R89 (c), (f) and (g). -/
theorem decodeWrite_error_iff (w : CommandWord) :
    (∃ e, decodeWrite w = .error e) ↔
      tagOfByte (fieldTag w) = none ∨ (fieldCount w ≠ 1#8 ∨ fieldTag w ≠ 0x10#8) ∨
      fieldZero w ≠ 0#15 := by
  cases ht : tagOfByte (fieldTag w) with
  | none => simp [decodeWrite, ht]
  | some tag =>
    have htag : fieldTag w = 0x10#8 ↔ tag = .w16 := by
      rw [tagOfByte_eq_some ht]
      cases tag <;> decide
    rw [Ne, Ne, htag]
    simp only [decodeWrite, ht]
    split_ifs with hfixed hz hchk
    · simp [hfixed, hz]
    · simp [hfixed, hz]
    · exact iff_of_true ⟨_, rfl⟩ (.inr (.inr hz))
    · exact iff_of_true ⟨_, rfl⟩ (.inr (.inl (not_and_or.1 hfixed)))

/-- The list of R89 in the names of the fields of R81. -/
theorem reservedWord_iff (w : CommandWord) :
    Claims.ReservedWord w ↔
      (fieldUnit w ≠ 0#8 ∧ fieldUnit w ≠ 1#8 ∧ fieldUnit w ≠ 2#8) ∨
      (fieldUnit w = 0#8 ∧
        ((fieldFc w ≠ 0x04#8 ∧ fieldFc w ≠ 0x06#8) ∨
         tagOfByte (fieldTag w) = none ∨
         (fieldFc w = 0x04#8 ∧ (fieldCount w = 0#8 ∨
           16 < (fieldCount w).toNat * wordsPerValue (fieldTag w))) ∨
         (fieldFc w = 0x04#8 ∧ (fieldWdata w ≠ 0#16 ∨ fieldChk w = 1#1)) ∨
         (fieldFc w = 0x06#8 ∧ (fieldCount w ≠ 1#8 ∨ fieldTag w ≠ 0x10#8)) ∨
         fieldZero w ≠ 0#15)) := by
  rw [tagOfByte_eq_none_iff]
  rfl

/-- The words the decoder turns away are the list of R89, (a) to (g). -/
theorem decodeBase_error_iff (w : CommandWord) :
    (∃ e, decodeBase w = .error e) ↔ Claims.ReservedWord w := by
  rw [reservedWord_iff]
  unfold decodeBase
  split_ifs with h1 h2 h0 hread hwrite
  · simp [h1]
  · simp [h2]
  · rw [decodeRead_error_iff]
    simp [h0, hread, fcRead]
  · rw [decodeWrite_error_iff]
    simp [h0, hwrite, fcWrite]
  · simp [h0, hread, hwrite]
  · simp [h0, h1, h2]

end Sys2Proof

namespace Sys2Proof.Machine

/-- An instruction that runs is not refused as a reserved word. -/
theorem exec_ne_reserved (i : Instr) (s : State) (why : Reserved) :
    exec i s ≠ .refused (.reservedCommand why) := by
  rcases exec_next_or_nan i s with ⟨t, h⟩ | ⟨v, -, -, h⟩ <;> simp [h]

/-- A command is refused as reserved for the reason the decoder gives (R89). -/
theorem acceptCommand_reserved_iff {s : State} {w : CommandWord} {rest : List CommandWord}
    {why : Reserved} (h : s.commands = w :: rest) :
    acceptCommand s = .refused (.reservedCommand why) ↔ decode w = .error why := by
  cases hd : decode w with
  | ok i => simp [acceptCommand_ok h hd, exec_ne_reserved]
  | error why' => simp [acceptCommand_reserved h hd]

/-- Settles O6: an accepted word is refused as reserved when the decoder turns it away, which is R89's list. -/
theorem reservedWordsAreRefused : Obligations.ReservedWordsAreRefused := by
  intro s w rest hf hc
  simp only [step_idle hf, acceptCommand_reserved_iff hc, decode, decodeIn_error_iff,
    decodeBase_error_iff]

end Sys2Proof.Machine
end

section
/-! Proofs of O10 and O9: a round of the loop does not look at the command port, and the idle engine looks at nothing
else (R80). -/

namespace Sys2Proof.Machine

/-- An outcome with other words at the command port of its state. -/
def presenting (cs : List CommandWord) :
    Host.Outcome State Fault Refusal → Host.Outcome State Fault Refusal
  | .next t => .next { t with commands := cs }
  | o => o

@[simp] theorem presenting_next (cs : List CommandWord) (t : State) :
    presenting cs (.next t) = .next { t with commands := cs } := rfl

@[simp] theorem presenting_refused (cs : List CommandWord) (q : Refusal) :
    presenting cs (.refused q) = .refused q := rfl

/-- Decoding a response does not look at the command port. -/
theorem succeed_presenting (r : Response) (s : State) (cs : List CommandWord) :
    succeed r { s with commands := cs } = presenting cs (succeed r s) := by
  cases hw : fillWindow s.pending.registersToRead.toNat r with
  | none => simp [succeed, hw]
  | some w =>
    rw [succeed_eq hw]
    exact succeed_eq hw

/-- Nor does examining one. -/
theorem respond_presenting (r : Response) (s : State) (cs : List CommandWord) :
    respond r { s with commands := cs } = presenting cs (respond r s) := by
  cases hx : r.hasException with
  | true => simp only [respond_exception _ hx]; rfl
  | false =>
    simp only [respond_success _ hx]
    exact succeed_presenting r (s.called [.hasException]) cs

/-- Nor does a round of the loop (R80). -/
theorem pollRound_presenting (s : State) (cs : List CommandWord) :
    pollRound { s with commands := cs } = presenting cs (pollRound s) := by
  cases ha : s.transport.nextRound.1.awaiting with
  | false =>
    rw [pollRound_timeout ha]
    exact pollRound_timeout ha
  | true =>
    cases hp : s.transport.nextRound.1.poll with
    | none =>
      rw [pollRound_waiting ha hp]
      exact pollRound_waiting ha hp
    | some r =>
      rw [pollRound_response ha hp]
      exact (pollRound_response (s := { s with commands := cs }) ha hp).trans
        (respond_presenting r
          (({ s with transport := s.transport.nextRound.2 } : State).called [.awaiting, .poll]) cs)

/-- Settles O10: a round with other words at the command port ends as it would without them, the words still there; for
the words that are there already, that is a round that leaves the port as it was. -/
theorem commandsAreHeldWhileAwaiting : Obligations.CommandsAreHeldWhileAwaiting := by
  intro s cs hf
  rw [step_await hf, step_await (s := { s with commands := cs }) hf, pollRound_presenting s cs]
  have hsame : pollRound s = presenting s.commands (pollRound s) := pollRound_presenting s s.commands
  refine ⟨fun t h => ?_, fun t h => by rw [h, presenting_next], fun q h => by
    rw [h, presenting_refused]⟩
  rw [h, presenting_next] at hsame
  have hport := congrArg State.commands (Host.Outcome.next.inj hsame)
  exact hport

theorem acceptCommand_nil {s : State} (h : s.commands = []) : acceptCommand s = .next s := by
  simp [acceptCommand, h]

/-- Settles O9: accepting no word changes nothing. -/
theorem idleWithoutCommandStays : Obligations.IdleWithoutCommandStays :=
  fun _ hf hc => (step_idle hf).trans (acceptCommand_nil hc)

end Sys2Proof.Machine
end

section
/-! Proofs of O36 and O31 to O35: what each micro-operation leaves in the slot it fills (R112 to R118). -/

namespace Sys2Proof.Machine

/-! ### The state each micro-operation leaves: the slots alone differ (R112 to R116) -/

section
variable (w : Window) (s : State)

theorem exec_assemble16 : exec (.assemble16 w) s = .next { s with buffers :=
    { zeroBuffers with int16 := fillInt16 s.pending.registersToRead.toNat w } } := rfl

theorem exec_assembleU32 : exec (.assembleU32 w) s =
    .next { s with buffers := { zeroBuffers with uint32 := bigRegisterFirst w } } := rfl

theorem exec_assembleS32 : exec (.assembleS32 w) s =
    .next { s with buffers := { zeroBuffers with int32 := bigRegisterFirst w } } := rfl

theorem exec_assembleF64 : exec (.assembleF64 w) s =
    .next { s with buffers := { zeroBuffers with float64 := floatPattern w } } := rfl

theorem exec_assembleNone : exec .assembleNone s = .next s := rfl

end

/-! ### The values a window assembles to -/

/-- An entry `ASSEMBLE.16` stores (R112). -/
theorem fillInt16_getElem (n : Nat) (w : Window) (j : Fin 16) :
    (fillInt16 n w)[j] = if j.val < n then w[j] else 0#16 := by
  simp [fillInt16]

/-- The inverse mapping of R118 for 32 bits: the high half goes first. -/
theorem bigRegisterFirst_of_split {w : Window} {p : BitVec 32} (h0 : w[0] = p.extractLsb' 16 16)
    (h1 : w[1] = p.extractLsb' 0 16) : bigRegisterFirst w = p := by
  rw [bigRegisterFirst, h0, h1, BitVec.extractLsb'_append_extractLsb'_eq_extractLsb' (by rfl),
    BitVec.extractLsb'_eq_self]

/-- The inverse mapping of R118 for 64 bits: the least significant word goes first. -/
theorem floatPattern_of_split {w : Window} {q : F64} (h0 : w[0] = q.extractLsb' 0 16)
    (h1 : w[1] = q.extractLsb' 16 16) (h2 : w[2] = q.extractLsb' 32 16)
    (h3 : w[3] = q.extractLsb' 48 16) : floatPattern w = q := by
  rw [floatPattern_eq, h0, h1, h2, h3,
    BitVec.extractLsb'_append_extractLsb'_eq_extractLsb' (by rfl),
    BitVec.extractLsb'_append_extractLsb'_eq_extractLsb' (by rfl),
    BitVec.extractLsb'_append_extractLsb'_eq_extractLsb' (by rfl), BitVec.extractLsb'_eq_self]

/-! ### The obligations -/

/-- Settles O36: the adjacent fields of a pattern, put together again in the order of R68, are the pattern. -/
theorem assembleInvertsSplit : Obligations.AssembleInvertsSplit := by
  intro p q w s
  refine ⟨fun h0 h1 => ⟨?_, ?_⟩, fun h0 h1 h2 h3 => ?_⟩
  · exact ⟨_, exec_assembleU32 w s, bigRegisterFirst_of_split h0 h1⟩
  · exact ⟨_, exec_assembleS32 w s, bigRegisterFirst_of_split h0 h1⟩
  · exact ⟨_, exec_assembleF64 w s, floatPattern_of_split h0 h1 h2 h3⟩

/-- Settles O31, entry by entry of the filled slot. -/
theorem assemble16Fills : Obligations.Assemble16Fills := fun w s =>
  ⟨rfl, _, exec_assemble16 w s, fillInt16_getElem _ w, rfl, rfl, rfl⟩

/-- Settles O32, by the unsigned number of two words. -/
theorem assembleU32Fills : Obligations.AssembleU32Fills := fun w s =>
  ⟨rfl, _, exec_assembleU32 w s, append_toNat w[0] w[1], rfl, rfl, rfl⟩

/-- Settles O33, by the signed number of two words. -/
theorem assembleS32Fills : Obligations.AssembleS32Fills := fun w s =>
  ⟨rfl, _, exec_assembleS32 w s, append_toInt w[0] w[1], rfl, rfl, rfl⟩

/-- Settles O34: the byte order is the definition's, and it is the word order of R68. -/
theorem assembleF64Fills : Obligations.AssembleF64Fills := fun w s =>
  ⟨rfl, _, exec_assembleF64 w s, rfl, floatPattern_eq w, rfl, rfl, rfl⟩

/-- Settles O35: where bit 8 says that no register is read, the tag byte is not looked at. -/
theorem assembleNoneWritesNothing : Obligations.AssembleNoneWritesNothing := fun s =>
  ⟨exec_assembleNone s, fun _ _ hsel => if_pos hsel⟩

end Sys2Proof.Machine
end

section
/-! Proof of O8: a round whose response is long enough runs the micro-operation over the window it fills (R111, R169). -/

namespace Sys2Proof.Machine

/-- The window a long enough response fills is the one with its words below the fill limit and zeros from it on. -/
theorem fillWindow_eq_some {n : Nat} {r : Response} {w : Window} (hlen : n ≤ r.registers.length)
    (hw : ∀ j : Fin 16, w[j] = if j.val < n then r.registers.getD j.val 0#16 else 0#16) :
    fillWindow n r = some w := by
  rw [fillWindow_some hlen]
  refine congrArg some (Vector.ext fun i hi => ?_)
  rw [Vector.getElem_ofFn]
  exact (hw ⟨i, hi⟩).symm

/-- The round that pulls a response without exception, long enough to fill a window, ends with the slots the
micro-operation leaves over that window, and with code 0 (R169). -/
theorem pollRound_filled {s : State} {r : Response} {w : Window}
    (hround : s.transport.nextRound.1 = ⟨true, some r⟩) (hx : r.hasException = false)
    (hfill : fillWindow s.pending.registersToRead.toNat r = some w) :
    pollRound s = .next
      ((({ s with
          transport := s.transport.nextRound.2
          buffers := assembled s.pending w s.buffers } : State).called
        ([.awaiting, .poll, .hasException] ++
          registerCalls s.pending.registersToRead.toNat)).finish errSuccess) := by
  rw [pollRound_response (r := r) (by rw [hround]) (by rw [hround]), respond_success _ hx,
    State.called_called, succeed_eq (w := w)]
  · simp [State.called, Transport.called, State.finish]
  · exact hfill

/-- The state that the micro-operation of a record (R111) leaves, in a state that holds that record. -/
theorem eq_of_exec_assembleOp {p : PendingTransaction} {w : Window} {s t : State}
    (h : exec (assembleOp p w) s = .next t) (hp : s.pending = p) :
    t = { s with buffers := assembled p w s.buffers } := by
  subst hp
  exact Host.Outcome.next.inj (h.symm.trans (exec_assembleOp w s))

/-- Settles O8: the micro-operation of R111 changes the slots alone, so the state it leaves is the one the round leaves
before it ends the command. -/
theorem stepRunsMicroOperation : Obligations.StepRunsMicroOperation := by
  intro s r rs w t hf hrounds hx hlen hw hexec
  have hnext := Transport.nextRound_listed hrounds
  have hstep := pollRound_filled (by rw [hnext]) hx (fillWindow_eq_some hlen hw)
  obtain rfl := eq_of_exec_assembleOp (p := s.pending) (w := w) hexec rfl
  rw [step_await hf, hstep, hnext]
  simp [State.called, Transport.called, State.finish, registerCalls]

end Sys2Proof.Machine
end

section
/-! Proof of O40: the product is rounded to the nearest representable magnitude (R134). -/

namespace Sys2Proof.Machine

/-- No multiple of the divisor is nearer the argument than the rounded quotient's. -/
theorem roundHalfEven_nearest {n q : Nat} (hq : 0 < q) (c : Nat) :
    |((roundHalfEven n q * q : Nat) : Int) - n| ≤ |((c * q : Nat) : Int) - n| := by
  obtain ⟨hup, hdown⟩ := roundHalfEven_error (n := n) hq
  rcases lt_trichotomy c (roundHalfEven n q) with h | rfl | h
  · have hstep := Nat.mul_le_mul_right q (Nat.succ_le_of_lt h)
    rw [Nat.succ_mul] at hstep
    exact (abs_le.2 (by omega)).trans (neg_le_abs _)
  · exact le_rfl
  · have hstep := Nat.mul_le_mul_right q (Nat.succ_le_of_lt h)
    rw [Nat.succ_mul] at hstep
    exact (abs_le.2 (by omega)).trans (le_abs_self _)

/-- Of two equally near multiples the even one is taken. -/
theorem roundHalfEven_even_of_tie {n q : Nat} (h : 2 * (n % q) = q) : roundHalfEven n q % 2 = 0 := by
  unfold roundHalfEven
  split <;> omega

/-- The rounded product as a multiple of its last place, in the units of the exact product. -/
theorem roundProduct_mul_units (n : Nat) :
    roundProduct n * unitsPerOne = roundHalfEven n (2 ^ droppedBits n) * 2 ^ droppedBits n := by
  rw [roundProduct, Nat.mul_assoc, ← two_pow_droppedBits]

theorem lt_two_pow_droppedBits_add (n : Nat) : n < 2 ^ (53 + droppedBits n) :=
  Nat.lt_log2_self.trans_le (Nat.pow_le_pow_right (by omega) (by unfold droppedBits; omega))

/-- The rounded product has at most 53 significant bits: a carry out of the 53 leaves a power of two. -/
theorem roundProduct_representable (n : Nat) : Representable (roundProduct n) := by
  have hle : roundHalfEven n (2 ^ droppedBits n) ≤ 2 ^ 53 :=
    roundHalfEven_le (Nat.two_pow_pos _) (by
      rw [← Nat.pow_add]; exact (lt_two_pow_droppedBits_add n).le)
  rcases hle.lt_or_eq with h | h
  · exact ⟨_, _, h, rfl⟩
  · exact ⟨1, 53 + (droppedBits n - 1074), by omega, by rw [roundProduct, h, Nat.pow_add, Nat.one_mul]⟩

theorem droppedBits_two_pow_log2 (n : Nat) : droppedBits (2 ^ n.log2) = droppedBits n := by
  rw [droppedBits, Nat.log2_two_pow, droppedBits]

/-- A representable magnitude is a multiple of the product's last place, or lies below a multiple of it (the power of
two at the product's leading bit) that the exact product reaches. -/
theorem lastPlace_dvd_or_below {n b : Nat} (hb : Representable b) :
    2 ^ (droppedBits n - 1074) ∣ b ∨
      ∃ c, b * unitsPerOne < c * 2 ^ droppedBits n ∧ c * 2 ^ droppedBits n ≤ n := by
  rcases Nat.lt_or_ge n.log2 (droppedBits n) with hd | hd
  · have h0 : droppedBits n = 1074 := by unfold droppedBits at *; omega
    rw [h0]
    exact .inl (Nat.one_dvd b)
  have hn : n ≠ 0 := by
    rintro rfl
    exact absurd ((le_droppedBits 0).trans hd) (by decide)
  rcases Nat.lt_or_ge (b * unitsPerOne) (2 ^ n.log2) with hlt | hge
  · refine .inr ⟨2 ^ (n.log2 - droppedBits n), ?_⟩
    rw [← Nat.pow_add, Nat.sub_add_cancel hd]
    exact ⟨hlt, Nat.log2_self_le hn⟩
  · have h := lastPlace_dvd hb (Nat.two_pow_pos _) hge
    rw [droppedBits_two_pow_log2] at h
    exact .inl h

/-- No representable magnitude is nearer the exact product than the rounded one (R134). -/
theorem roundProduct_nearest {n b : Nat} (hb : Representable b) :
    |((roundProduct n * unitsPerOne : Nat) : Int) - n| ≤ |((b * unitsPerOne : Nat) : Int) - n| := by
  rw [roundProduct_mul_units]
  rcases lastPlace_dvd_or_below (n := n) hb with ⟨c, rfl⟩ | ⟨c, hlt, hle⟩
  · rw [Nat.mul_comm _ c, Nat.mul_assoc, ← two_pow_droppedBits]
    exact roundHalfEven_nearest (Nat.two_pow_pos _) c
  · refine (roundHalfEven_nearest (Nat.two_pow_pos _) c).trans ?_
    rw [abs_sub_comm, abs_sub_comm ((b * unitsPerOne : Nat) : Int)]
    exact (abs_le.2 (by omega)).trans (le_abs_self _)

/-- The last place of a rounded product that was a tie is even (R134). -/
theorem roundProduct_even_of_tie {n : Nat} (h : 2 * (n % 2 ^ droppedBits n) = 2 ^ droppedBits n) :
    roundProduct n / 2 ^ (droppedBits n - 1074) % 2 = 0 := by
  rw [roundProduct, Nat.mul_div_cancel _ (Nat.two_pow_pos _)]
  exact roundHalfEven_even_of_tie h

theorem finOrInf_of_lt {neg : Bool} {mag : Nat} (h : mag < infinityUnits) :
    FVal.finOrInf neg mag = .fin neg mag := if_pos h

theorem finOrInf_of_le {neg : Bool} {mag : Nat} (h : infinityUnits ≤ mag) :
    FVal.finOrInf neg mag = .inf neg := if_neg h.not_gt

/-- Settles O40: a representable candidate is compared with a multiple of the product's last place. -/
theorem productIsRoundedToNearestEven : Obligations.ProductIsRoundedToNearestEven := by
  have hscale : 100 * unitsPerOne ≠ 0 := Nat.mul_ne_zero (by omega) unitsPerOne_pos.ne'
  refine ⟨scale_eq, fun s => ?_, rfl, fun s t m n => ⟨fun h => ?_, fun h => ?_,
    roundProduct_representable _, fun a e ha => ?_, roundProduct_even_of_tie⟩⟩
  · rw [fmul, if_neg hscale, Bool.xor_false]
  · exact finOrInf_of_lt h
  · exact finOrInf_of_le h
  · exact_mod_cast roundProduct_nearest (n := m * n) ⟨a, e, ha, rfl⟩

end Sys2Proof.Machine
end

section
/-! Proofs of O41, O42 and O39: rounding to an integer, the cast and comparison, case by case (R133, R135, R136). -/

namespace Sys2Proof.Machine

theorem roundHalfAway_tie {m k : Nat} (h : 2 * m = (2 * k + 1) * unitsPerOne) :
    roundHalfAway m = k + 1 := by
  rw [roundHalfAway, h, show (2 * k + 1) * unitsPerOne + unitsPerOne = (k + 1) * (2 * unitsPerOne) by ring]
  exact Nat.mul_div_cancel _ (Nat.mul_pos (by omega) unitsPerOne_pos)

theorem fround_fin (s : Bool) (m : Nat) : fround (.fin s m) = .fin s (roundHalfAway m * unitsPerOne) :=
  rfl

/-- Settles O41: the error bound of the rounding, and its value at a tie. -/
theorem roundingTiesGoAwayFromZero : Obligations.RoundingTiesGoAwayFromZero := by
  refine ⟨fun s m => ⟨_, fround_fin s m, roundHalfAway_error m⟩, fun s k m h => ?_, ?_, fun s => rfl⟩
  · rw [fround_fin, roundHalfAway_tie h]
  · have h0 : roundHalfAway 0 = 0 := Nat.le_zero.1 (roundHalfAway_le (by omega))
    rw [fround_fin, h0, Nat.zero_mul]

theorem f2i_fin_out_of_range {n : Nat} {s : Bool} {k : Nat}
    (h : ¬(-(2 : Int) ^ (n - 1) ≤ signedInt s k ∧ signedInt s k < 2 ^ (n - 1))) :
    f2i n (.fin s (k * unitsPerOne)) = none := by
  rw [f2i, Nat.mul_div_cancel _ unitsPerOne_pos]
  exact if_neg fun hc => h hc.2

theorem f2i_fin_not_whole {n : Nat} {s : Bool} {m : Nat} (h : m % unitsPerOne ≠ 0) :
    f2i n (.fin s m) = none :=
  if_neg fun hc => h hc.1

/-- Settles O42: the three conditions of the cast, one at a time. -/
theorem castKeepsTheInteger : Obligations.CastKeepsTheInteger := by
  intro n hn
  have hpos : 0 < n := by omega
  refine ⟨fun s k h1 h2 => ⟨_, f2i_fin_int ⟨h1, h2⟩, BitVec.toInt_ofInt_eq_self hpos h1 h2⟩, ?_,
    fun s k => f2i_fin_out_of_range, fun s m => f2i_fin_not_whole, rfl, fun s => rfl⟩
  have h := f2i_fin_int (n := n) (s := true) (k := 0) (by simp)
  simpa using h

theorem fin_lt_fin (s t : Bool) (m n : Nat) :
    (FVal.fin s m).lt (.fin t n) = true ↔ signedInt s m < signedInt t n := decide_eq_true_iff

theorem isZero_iff (x : FVal) : x.isZero = true ↔ ∃ s, x = .fin s 0 := by
  cases x <;> simp [FVal.isZero]

/-- Settles O39: finite numbers compare as signed integers. -/
theorem comparisonIsOrdered : Obligations.ComparisonIsOrdered := by
  refine ⟨fun x => ⟨rfl, ?_⟩, fun s t => ?_, fun s m => ⟨rfl, rfl, rfl, rfl⟩, fun m n => ?_, isZero_iff⟩
  · rcases x with _ | (_ | _) | _ <;> rfl
  · cases s <;> cases t <;> rfl
  · simp only [← Bool.not_eq_true, fin_lt_fin, signedInt_false, signedInt_true]
    omega

end Sys2Proof.Machine
end

section
/-! Proofs of O43 and O46: the sign check (R137) passes a value with the operand's sign. -/

namespace Sys2Proof.Machine

/-- The sign check in terms of values (R137). -/
theorem disagree_iff (x : BitVec 32) (v : FVal) :
    disagree x v = true ↔
      x.toInt ≠ 0 ∧ v.isZero = false ∧ ¬(x.toInt < 0 ↔ v.lt FVal.zero = true) := by
  have h0 : x = 0#32 ↔ x.toInt = 0 := by rw [← BitVec.toInt_inj, BitVec.toInt_zero]
  rw [disagree, BitVec.msb_eq_toInt]
  cases v.isZero <;> cases v.lt FVal.zero <;> simp [h0, and_comm]

/-- A signed integer other than zero is negative if its sign says so. -/
theorem signedInt_neg_iff {s : Bool} {k : Nat} (h : signedInt s k ≠ 0) :
    signedInt s k < 0 ↔ s = true := by
  cases s
  · simp
  · rw [signedInt_true] at *
    simp only [iff_true]
    omega

theorem disagree_fin_iff (x : BitVec 32) (neg : Bool) (m : Nat) :
    disagree x (.fin neg m) = true ↔ x.toInt ≠ 0 ∧ m ≠ 0 ∧ ¬(x.toInt < 0 ↔ neg = true) := by
  rw [disagree_iff, FVal.isZero, decide_eq_false_iff_not]
  refine and_congr_right fun _ => and_congr_right fun hm => ?_
  have hz : signedInt neg m ≠ 0 := by cases neg <;> simpa using hm
  rw [FVal.zero, fin_lt_fin, signedInt_false, Nat.cast_zero, signedInt_neg_iff hz]

/-- Settles O43: `v < 0` of a number other than a zero is its sign. -/
theorem disagreeComparesSigns : Obligations.DisagreeComparesSigns := by
  refine fun x neg m => ⟨disagree_fin_iff x neg m, ?_, ?_⟩
  · rw [disagree_iff]
    cases neg <;> simp [FVal.isZero, FVal.lt, FVal.zero]
  · rw [disagree_iff]
    simp only [FVal.isZero, FVal.lt]
    simp only [true_and, Bool.false_eq_true, iff_false, not_not]
    omega

/-- An integer with the sign of a finite number does not disagree with it. -/
theorem disagree_of_same_sign {x : BitVec 32} {s : Bool} {m j : Nat} (hx : x.toInt = signedInt s j) :
    disagree x (.fin s m) = false := by
  rw [← Bool.not_eq_true, disagree_fin_iff, hx]
  rintro ⟨hj, -, hsign⟩
  exact hsign (signedInt_neg_iff hj)

end Sys2Proof.Machine
end

section
/-! Proofs of O44, O45, O46 and O49: what a compress command answers for every operand (R140, R141, R142). -/

namespace Sys2Proof.Machine

/-- No number is above a bound that is not negative and below one that is not positive. -/
theorem not_below_of_above {v : FVal} {hi lo : Nat} (h : (FVal.fin false hi).lt v = true) :
    v.lt (.fin true lo) = false := by
  cases v with
  | nan => rfl
  | inf neg => cases neg <;> simp [FVal.lt] at *
  | fin s m =>
    rw [fin_lt_fin] at h
    rw [← Bool.not_eq_true, fin_lt_fin]
    cases s <;> simp only [signedInt_false, signedInt_true] at * <;> omega

theorem not_below16_of_above {v : FVal} (h : (FVal.ofBits hi16).lt v = true) :
    v.lt (FVal.ofBits lo16) = false := by
  rw [hi16_eq] at h
  rw [lo16_eq]
  exact not_below_of_above h

theorem not_below32_of_above {v : FVal} (h : (FVal.ofBits hi32).lt v = true) :
    v.lt (FVal.ofBits lo32) = false := by
  rw [hi32_eq] at h
  rw [lo32_eq]
  exact not_below_of_above h

theorem ne_nan_of_lt {v w : FVal} (h : v.lt w = true) : w ≠ .nan := by
  rintro rfl
  cases v with
  | inf neg => cases neg <;> cases h
  | _ => cases h

theorem compress16_of_above {v : F64} (h : (FVal.ofBits hi16).lt (FVal.ofBits v) = true) :
    compress16 v = .ok (int16Max, errOverflow16) := by
  rcases compress16_cases v with ⟨hn, -⟩ | ⟨-, ⟨-, he⟩ | ⟨h1, -⟩⟩
  · exact absurd hn (ne_nan_of_lt h)
  · exact he
  · exact nomatch h.symm.trans h1

theorem compress16_of_below {v : F64} (h : (FVal.ofBits v).lt (FVal.ofBits lo16) = true) :
    compress16 v = .ok (int16Min, errUnderflow16) := by
  rcases compress16_cases v with ⟨hn, -⟩ | ⟨-, ⟨h1, -⟩ | ⟨-, ⟨-, he⟩ | ⟨h2, -⟩⟩⟩
  · exact nomatch hn ▸ h
  · exact nomatch h.symm.trans (not_below16_of_above h1)
  · exact he
  · exact nomatch h.symm.trans h2

/-- Within the bounds `COMPRESS16` succeeds, as the cast is in range (R142). -/
theorem compress16_of_within {v : F64} (hn : FVal.ofBits v ≠ .nan)
    (h1 : (FVal.ofBits hi16).lt (FVal.ofBits v) = false)
    (h2 : (FVal.ofBits v).lt (FVal.ofBits lo16) = false) :
    ∃ x, f2i 16 (scaled (FVal.ofBits v)) = some x ∧ compress16 v = .ok (x, errSuccess) := by
  rcases compress16_cases v with ⟨hn', -⟩ | ⟨-, ⟨h1', -⟩ | ⟨-, ⟨h2', -⟩ | ⟨-, h | ⟨hx, -⟩⟩⟩⟩
  · exact absurd hn' hn
  · exact nomatch h1.symm.trans h1'
  · exact nomatch h2.symm.trans h2'
  · exact h
  · exact absurd hx (f2i_scaled_of_bounds16 hn h1 h2)

theorem compress32_of_above {v : F64} (h : (FVal.ofBits hi32).lt (FVal.ofBits v) = true) :
    compress32 v = .ok (int32Max, errOverflow32) := by
  rcases compress32_cases v with ⟨hn, -⟩ | ⟨-, ⟨-, he⟩ | ⟨h1, -⟩⟩
  · exact absurd hn (ne_nan_of_lt h)
  · exact he
  · exact nomatch h.symm.trans h1

theorem compress32_of_below {v : F64} (h : (FVal.ofBits v).lt (FVal.ofBits lo32) = true) :
    compress32 v = .ok (int32Min, errUnderflow32) := by
  rcases compress32_cases v with ⟨hn, -⟩ | ⟨-, ⟨h1, -⟩ | ⟨-, ⟨-, he⟩ | ⟨h2, -⟩⟩⟩
  · exact nomatch hn ▸ h
  · exact nomatch h.symm.trans (not_below32_of_above h1)
  · exact he
  · exact nomatch h.symm.trans h2

/-- Within the bounds `COMPRESS32` reaches its sign check, as the cast is in range (R142). -/
theorem compress32_of_within {v : F64} (hn : FVal.ofBits v ≠ .nan)
    (h1 : (FVal.ofBits hi32).lt (FVal.ofBits v) = false)
    (h2 : (FVal.ofBits v).lt (FVal.ofBits lo32) = false) :
    ∃ x, f2i 32 (scaled (FVal.ofBits v)) = some x ∧
      compress32 v = .ok (checkSign x (FVal.ofBits v)) := by
  rcases compress32_cases v with ⟨hn', -⟩ | ⟨-, ⟨h1', -⟩ | ⟨-, ⟨h2', -⟩ | ⟨-, h | ⟨hx, -⟩⟩⟩⟩
  · exact absurd hn' hn
  · exact nomatch h1.symm.trans h1'
  · exact nomatch h2.symm.trans h2'
  · exact h
  · exact absurd hx (f2i_scaled_of_bounds32 hn h1 h2)

theorem compress16_of_nan {v : F64} (h : FVal.ofBits v = .nan) :
    compress16 v = .error .nanOperand := if_pos h

theorem compress32_of_nan {v : F64} (h : FVal.ofBits v = .nan) :
    compress32 v = .error .nanOperand := if_pos h

/-- Settles O44: one lemma for each clause; within the bounds the cast exists. -/
theorem compress16Result : Obligations.Compress16Result := by
  intro v s
  rw [← ofBits_eq_nan_iff]
  refine ⟨fun hn => exec_compress16_error (compress16_of_nan hn) s, fun hn =>
    ⟨fun h => exec_compress16_ok (compress16_of_above h) s,
      fun h => exec_compress16_ok (compress16_of_below h) s, fun h1 h2 => ?_⟩⟩
  obtain ⟨x, hx, he⟩ := compress16_of_within hn h1 h2
  exact ⟨x, hx, exec_compress16_ok he s⟩

/-- The pair of the sign check at the return port, as a choice between three returns (R141). -/
theorem returnPair_checkSign (x : BitVec 32) (v : FVal) (s : State) :
    s.returnPair (.s32 (checkSign x v).1) (checkSign x v).2 =
      { s with
        ret :=
          if disagree x v = true then
            if v.lt FVal.zero = true then ⟨true, errUnderflow32, .s32 int32Min⟩
            else ⟨true, errOverflow32, .s32 int32Max⟩
          else ⟨true, errSuccess, .s32 x⟩ } := by
  unfold checkSign State.returnPair
  split
  · split <;> rfl
  · rfl

/-- Settles O45: as O44, with the outcome of the sign check at the return port. -/
theorem compress32Result : Obligations.Compress32Result := by
  intro v s
  rw [← ofBits_eq_nan_iff]
  refine ⟨fun hn => exec_compress32_error (compress32_of_nan hn) s, fun hn =>
    ⟨fun h => exec_compress32_ok (compress32_of_above h) s,
      fun h => exec_compress32_ok (compress32_of_below h) s, fun h1 h2 => ?_⟩⟩
  obtain ⟨x, hx, he⟩ := compress32_of_within hn h1 h2
  refine ⟨x, hx, (exec_compress32_checked he s).trans ?_⟩
  rw [returnPair_checkSign]
  rfl

/-- Settles O46: the cast keeps the sign of the operand, which scaling kept before it. -/
theorem stageTwoNeverFires : Obligations.StageTwoNeverFires := by
  intro v hv h1 h2
  rw [← ofBits_eq_nan_iff] at hv
  obtain ⟨s, m, j, hm, hs, -, hj⟩ := scaled_of_bounds32 hv h1 h2
  refine ⟨_, (congrArg (f2i 32) hs).trans (f2i_fin_int hj), ?_⟩
  rw [hm]
  exact disagree_of_same_sign (BitVec.toInt_ofInt_eq_self (by omega) hj.1 hj.2)

/-- A pair at the return port is a valid return and changes nothing else (R145). -/
theorem State.returnPair_frame (s : State) (x : RetValue) (code : BitVec 8) :
    s.returnPair x code = { s with ret := (s.returnPair x code).ret } ∧
      (s.returnPair x code).ret.valid = true := ⟨rfl, rfl⟩

/-- Settles O49: both commands only return a pair. -/
theorem compressWritesNoState : Obligations.CompressWritesNoState := by
  rintro i v s t (rfl | rfl) h
  · obtain ⟨x, code, rfl⟩ := exec_compress16_next h
    exact s.returnPair_frame x code
  · obtain ⟨x, code, rfl⟩ := exec_compress32_next h
    exact s.returnPair_frame x code

end Sys2Proof.Machine
end

section
/-! Proofs of O38 and O48: the patterns of R132 and the special operands of R143, evaluated. -/

namespace Sys2Proof.Machine

/-- Settles O38: the magnitudes of the patterns are known, and what is left is exact arithmetic on them. -/
theorem boundsAreTheSpecsPatterns : Obligations.BoundsAreTheSpecsPatterns := by
  refine ⟨⟨_, hi16_eq, ?_⟩, ⟨_, lo16_eq, ?_⟩, ⟨_, hi32_eq, ?_⟩, ⟨_, lo32_eq, ?_⟩⟩
  all_goals decide +kernel

/-- Settles O48: the tiny operands by evaluation, the infinities as operands beyond a bound. -/
theorem specialOperandsCompress : Obligations.SpecialOperandsCompress := by
  refine fun s => ⟨fun v hv => ?_, ?_, ?_, ?_, ?_⟩
  · rcases hv with rfl | rfl | rfl | rfl
    all_goals exact ⟨exec_compress16_ok (v := 0#16) (code := errSuccess) (by decide +kernel) s,
      exec_compress32_ok (v := 0#32) (code := errSuccess) (by decide +kernel) s⟩
  · exact exec_compress16_ok (compress16_of_above (by decide +kernel)) s
  · exact exec_compress16_ok (compress16_of_below (by decide +kernel)) s
  · exact exec_compress32_ok (compress32_of_above (by decide +kernel)) s
  · exact exec_compress32_ok (compress32_of_below (by decide +kernel)) s

end Sys2Proof.Machine
end

section
/-! Proof of O47: the error of a scaled value is at most that of its two roundings (R134, R135, R146). -/

namespace Sys2Proof.Machine

theorem droppedBits_le {n b : Nat} (h : n < 2 ^ (b + 2148)) : droppedBits n ≤ b + 2095 := by
  have hlog : n.log2 < b + 2148 := by
    rcases Nat.eq_zero_or_pos n with rfl | hn
    · rw [Nat.log2_zero]
      omega
    · exact (Nat.log2_lt hn.ne').2 h
  unfold droppedBits
  omega

theorem two_pow_add_two_units (b : Nat) : 2 ^ (b + 2148) = 2 ^ b * unitsPerOne * unitsPerOne := by
  rw [unitsPerOne, Nat.mul_assoc, ← Nat.pow_add, ← Nat.pow_add]

/-- How far the rounded product with 100 is from the exact one, for a number whose product is below `2^b` (R134). -/
theorem roundProduct_scale_error {m b : Nat} (h : 100 * m < 2 ^ b * unitsPerOne) :
    2 * roundProduct (m * (100 * unitsPerOne)) ≤ 2 * (100 * m) + 2 ^ (b + 1021) ∧
      2 * (100 * m) ≤ 2 * roundProduct (m * (100 * unitsPerOne)) + 2 ^ (b + 1021) := by
  have hprod : m * (100 * unitsPerOne) = 100 * m * unitsPerOne := by ring
  have hdrop : droppedBits (m * (100 * unitsPerOne)) ≤ b + 2095 := droppedBits_le (by
    rw [hprod, two_pow_add_two_units]
    exact Nat.mul_lt_mul_of_pos_right h unitsPerOne_pos)
  have hquantum : 2 ^ droppedBits (m * (100 * unitsPerOne)) ≤ 2 ^ (b + 1021) * unitsPerOne := by
    rw [two_pow_droppedBits]
    exact Nat.mul_le_mul_right _ (Nat.pow_le_pow_right (by omega) (by omega))
  obtain ⟨hup, hdown⟩ := roundProduct_error (m * (100 * unitsPerOne))
  generalize roundProduct (m * (100 * unitsPerOne)) = r at *
  generalize (2 : Nat) ^ (b + 1021) = w at *
  rw [hprod] at hup hdown hquantum
  exact ⟨Nat.le_of_mul_le_mul_right (by linarith) unitsPerOne_pos,
    Nat.le_of_mul_le_mul_right (by linarith) unitsPerOne_pos⟩

/-- What a cast integer is worth (R136). -/
theorem toInt_of_f2i_fin {n : Nat} {s : Bool} {k : Nat} {x : BitVec n} (hn : 0 < n)
    (h : f2i n (.fin s (k * unitsPerOne)) = some x) : x.toInt = signedInt s k := by
  by_cases hk : -(2 : Int) ^ (n - 1) ≤ signedInt s k ∧ signedInt s k < 2 ^ (n - 1)
  · rw [f2i_fin_int hk] at h
    cases h
    exact BitVec.toInt_ofInt_eq_self hn hk.1 hk.2
  · rw [f2i_fin_out_of_range hk] at h
    cases h

/-- What a scaled and cast number is worth: the twice rounded product with 100, with the number's sign. -/
theorem toInt_of_f2i_scaled {n : Nat} {s : Bool} {m : Nat} {x : BitVec n} (hn : 0 < n)
    (h : f2i n (scaled (.fin s m)) = some x) :
    x.toInt = signedInt s (roundHalfAway (roundProduct (m * (100 * unitsPerOne)))) := by
  rw [scaled, scale_eq, fmul, FVal.finOrInf, Bool.xor_false] at h
  split at h
  · exact toInt_of_f2i_fin hn h
  · cases h

/-- The distance of two numbers of one sign is that of their magnitudes. -/
theorem abs_signedInt_sub (s : Bool) (j m u : Nat) :
    |signedInt s j * u - 100 * signedInt s m| = |(j * u - 100 * m : Int)| := by
  cases s
  · rfl
  · rw [signedInt_true, signedInt_true, ← abs_neg]
    congr 1
    ring

/-- The accuracy of a scaled and cast number whose product with 100 is below `2^b` (R146). -/
theorem f2i_scaled_error {n b : Nat} {s : Bool} {m : Nat} {x : BitVec n} (hn : 0 < n)
    (h : f2i n (scaled (.fin s m)) = some x) (hm : 100 * m < 2 ^ b * unitsPerOne) :
    2 * |x.toInt * unitsPerOne - 100 * signedInt s m| ≤ unitsPerOne + 2 * 2 ^ (b + 1020) := by
  obtain ⟨hup, hdown⟩ := roundProduct_scale_error hm
  obtain ⟨hup', hdown'⟩ := roundHalfAway_error (roundProduct (m * (100 * unitsPerOne)))
  rw [toInt_of_f2i_scaled hn h, abs_signedInt_sub]
  have hpow : (2 : Nat) ^ (b + 1021) = 2 * 2 ^ (b + 1020) := Nat.pow_succ'
  rw [hpow] at hup hdown
  generalize roundHalfAway (roundProduct (m * (100 * unitsPerOne))) = j at *
  generalize roundProduct (m * (100 * unitsPerOne)) = r at *
  have hcast : (2 : Int) ^ (b + 1020) = (2 ^ (b + 1020) : Nat) := by rw [Nat.cast_pow, Nat.cast_ofNat]
  rw [hcast, ← abs_two, ← abs_mul, abs_two, abs_le, ← Nat.cast_mul]
  generalize (2 : Nat) ^ (b + 1020) = w at *
  generalize j * unitsPerOne = z at *
  omega

/-- A finite number between two bounds whose products with 100 are below `2^b` has such a product (R133). -/
theorem mag_lt_of_bounds {hi lo b : Nat} {s : Bool} {m : Nat} (hhi : 100 * hi < 2 ^ b * unitsPerOne)
    (hlo : 100 * lo < 2 ^ b * unitsPerOne) (h1 : (FVal.fin false hi).lt (.fin s m) = false)
    (h2 : (FVal.fin s m).lt (.fin true lo) = false) : 100 * m < 2 ^ b * unitsPerOne := by
  obtain ⟨_, _, hv, hm⟩ := finite_of_bounds (by simp) h1 h2
  cases hv
  cases s
  · exact (Nat.mul_le_mul_left 100 hm).trans_lt hhi
  · exact (Nat.mul_le_mul_left 100 hm).trans_lt hlo

/-- A `COMPRESS16` that returns 0 had an operand within the bounds and returns its scaled and cast value (R140). -/
theorem compress16_success {v : F64} {s t : State} (h : exec (.compress16 v) s = .next t)
    (hcode : t.ret.code = 0#8) :
    (FVal.ofBits hi16).lt (FVal.ofBits v) = false ∧ (FVal.ofBits v).lt (FVal.ofBits lo16) = false ∧
      ∃ x, f2i 16 (scaled (FVal.ofBits v)) = some x ∧ t.ret.value = .s16 x := by
  rcases compress16_cases v with ⟨-, he⟩ | ⟨-, ⟨-, he⟩ | ⟨h1, ⟨-, he⟩ | ⟨h2, ⟨x, hx, he⟩ | ⟨-, he⟩⟩⟩⟩
  · cases h.symm.trans (exec_compress16_error he s)
  · cases h.symm.trans (exec_compress16_ok he s)
    exact absurd (show errOverflow16 = 0#8 from hcode) (by decide)
  · cases h.symm.trans (exec_compress16_ok he s)
    exact absurd (show errUnderflow16 = 0#8 from hcode) (by decide)
  · cases h.symm.trans (exec_compress16_ok he s)
    exact ⟨h1, h2, x, hx, rfl⟩
  · cases h.symm.trans (exec_compress16_error he s)

theorem checkSign_success {x : BitVec 32} {v : FVal} (h : (checkSign x v).2 = 0#8) :
    (checkSign x v).1 = x := by
  unfold checkSign at *
  split at h
  · split at h <;> exact absurd h (by decide)
  · rw [if_neg ‹_›]

theorem compress32_success {v : F64} {s t : State} (h : exec (.compress32 v) s = .next t)
    (hcode : t.ret.code = 0#8) :
    (FVal.ofBits hi32).lt (FVal.ofBits v) = false ∧ (FVal.ofBits v).lt (FVal.ofBits lo32) = false ∧
      ∃ x, f2i 32 (scaled (FVal.ofBits v)) = some x ∧ t.ret.value = .s32 x := by
  rcases compress32_cases v with ⟨-, he⟩ | ⟨-, ⟨-, he⟩ | ⟨h1, ⟨-, he⟩ | ⟨h2, ⟨x, hx, he⟩ | ⟨-, he⟩⟩⟩⟩
  · cases h.symm.trans (exec_compress32_error he s)
  · cases h.symm.trans (exec_compress32_ok he s)
    exact absurd (show errOverflow32 = 0#8 from hcode) (by decide)
  · cases h.symm.trans (exec_compress32_ok he s)
    exact absurd (show errUnderflow32 = 0#8 from hcode) (by decide)
  · cases h.symm.trans (exec_compress32_checked he s)
    exact ⟨h1, h2, x, hx, congrArg RetValue.s32 (checkSign_success hcode)⟩
  · cases h.symm.trans (exec_compress32_error he s)

/-- Settles O47: a success had an operand within the bounds, and 100 times it is below 2^17 or 2^32. -/
theorem compressionIsAccurate : Obligations.CompressionIsAccurate := by
  intro v neg m s t hv
  refine ⟨fun h hcode => ?_, fun h hcode => ?_⟩
  · obtain ⟨h1, h2, x, hx, hval⟩ := compress16_success h hcode
    rw [hv] at hx
    rw [hv, hi16_eq] at h1
    rw [hv, lo16_eq] at h2
    exact ⟨x, hval, f2i_scaled_error (b := 17) (by omega) hx
      (mag_lt_of_bounds (by decide +kernel) (by decide +kernel) h1 h2)⟩
  · obtain ⟨h1, h2, x, hx, hval⟩ := compress32_success h hcode
    rw [hv] at hx
    rw [hv, hi32_eq] at h1
    rw [hv, lo32_eq] at h2
    exact ⟨x, hval, f2i_scaled_error (b := 32) (by omega) hx
      (mag_lt_of_bounds (by decide +kernel) (by decide +kernel) h1 h2)⟩

end Sys2Proof.Machine
end

section
/-! Proofs of O7, O14 to O17 and O19: an accepted command is executed, an accessor as the command of its row, and a
listed start answer decides where the request goes (R163 to R166, R180). -/

namespace Sys2Proof.Machine

/-- Settles O7: the idle engine accepts the next word and runs what it decodes to. -/
theorem stepRunsDecodedCommand : Obligations.StepRunsDecodedCommand :=
  fun _ _ _ _ hf hc hd => (step_idle hf).trans (acceptCommand_ok hc hd)

/-! ### The two start answers (R166) -/

theorem State.begin_taken {s : State} {rest : List Bool} (h : s.transport.starts = true :: rest)
    (q : Claims.Request) : s.begin q = Claims.requested s q rest := by
  simp [State.begin, State.start, Transport.nextStart_listed h, Claims.requested, Transport.called,
    Claims.Request.record, State.record]

theorem State.begin_busy {s : State} {rest : List Bool} (h : s.transport.starts = false :: rest)
    (q : Claims.Request) : s.begin q = Claims.busy s q rest := by
  simp [State.begin, State.start, Transport.nextStart_listed h, Claims.busy, Transport.called,
    Claims.Request.record, State.record, State.raise, State.finish, errChannelBusy]

/-- Settles O16: the instruction begins its request, and the answer decides how that goes on. -/
theorem startAnswerDecides : Obligations.StartAnswerDecides := by
  intro i q s rest hq
  rw [exec_of_requestOf hq s]
  exact ⟨fun h => by rw [State.begin_taken h], fun h => by rw [State.begin_busy h]⟩

/-! ### The requests of reads and writes (R170 to R172) -/

theorem requestOf_read {i : Instr} {a c : BitVec 8} {w : WidthTag} (h : i.expand = .read a c w) :
    Claims.requestOf i = some (Claims.readRequest a c w) := by
  rw [Claims.requestOf, h]

/-- A checked write of 0 to 8 makes the request of the plain one (R163). -/
theorem requestOf_write {i : Instr} {a : BitVec 8} {v : RegWord}
    (h : i.expand = .write a v ∨ (i.expand = .writeChk a v ∧ v.toNat ≤ 8)) :
    Claims.requestOf i = some (Claims.writeRequest a v) := by
  rcases h with h | ⟨h, hv⟩
  · rw [Claims.requestOf, h]
  · rw [Claims.requestOf, h]
    exact if_pos hv

/-- Settles O14: a read's request, taken. -/
theorem readsStartTheirRequest : Obligations.ReadsStartTheirRequest :=
  fun i _ _ _ s rest he => (startAnswerDecides i _ s rest (requestOf_read he)).1

/-- Settles O15: a write's request, taken. -/
theorem writesStartTheirRequest : Obligations.WritesStartTheirRequest :=
  fun i _ _ s rest he => (startAnswerDecides i _ s rest (requestOf_write he)).1

/-- Settles O17: beyond 8 the check rejects the write, up to 8 it is the plain one. -/
theorem resolutionIndexIsChecked : Obligations.ResolutionIndexIsChecked := by
  intro i a v s he
  have hexec : exec i s = .next (startCheckedWriting a v s) := by
    rw [← exec_expand, he]
    rfl
  rw [hexec]
  rcases startCheckedWriting_cases a v s with ⟨hv, h⟩ | ⟨hv, h⟩
  · exact ⟨fun _ => congrArg _ h, fun hle => absurd hv (Nat.not_lt.2 hle)⟩
  · exact ⟨fun hlt => absurd hlt (Nat.not_lt.2 hv), fun _ => congrArg _ h⟩

/-! ### Accessors of any table (R180) -/

theorem execAccessor_of_row {m : AccessorMap} {n : AccessorName} {row : AccessorRow}
    (h : m.row n = some row) (v : RegWord) (s : State) :
    execAccessor m n v s = some (exec (row.instr v) s) := by
  rw [execAccessor, h, exec_instr]
  rfl

/-- A row's word, unless it is reserved, decodes to what the row stands for (R85, R89). -/
theorem decodeBase_word {row : AccessorRow} {v : RegWord} (h : ¬Claims.ReservedWord (row.word v)) :
    decodeBase (row.word v) = .ok (row.instr v) := by
  cases row with
  | read a c tag =>
    rw [← decodeBase_error_iff, decodeBase_word_read] at h
    rw [decodeBase_word_read]
    split_ifs at h ⊢
    · rfl
    · exact absurd ⟨_, rfl⟩ h
  | write a => exact decodeBase_word_write a v
  | writeChk a => exact decodeBase_word_writeChk a v

/-- Accepting a row's word, unless it is reserved, does what the row stands for: the name it decodes under adds
nothing (R180). -/
theorem acceptCommand_word {row : AccessorRow} {v : RegWord} {s : State} {rest : List CommandWord}
    (hres : ¬Claims.ReservedWord (row.word v)) (hc : s.commands = row.word v :: rest) :
    acceptCommand s = exec (row.instr v) { s with commands := rest } := by
  rw [acceptCommand_ok hc (decode_of_decodeBase (decodeBase_word hres)), ← exec_expand, named_expand,
    exec_expand]

/-- Settles O19: an accessor is its row's command, and so is the word of the row. -/
theorem accessorsDoWhatTheyExpandTo : Obligations.AccessorsDoWhatTheyExpandTo := by
  refine ⟨fun i s => (exec_expand i s).symm, fun m n v s => ⟨?read, ?write, ?writeChk, ?none, ?word⟩⟩
  case read => exact fun a c t h => execAccessor_of_row h v s
  case write => exact fun a h => execAccessor_of_row h v s
  case writeChk => exact fun a h => execAccessor_of_row h v s
  case none => exact fun h => by rw [execAccessor, h]; rfl
  case word =>
    intro word rest hw hres hf hc
    obtain ⟨row, hrow, rfl⟩ := Option.map_eq_some_iff.1 hw
    rw [execAccessor_of_row hrow, step_idle hf, acceptCommand_word hres hc]

end Sys2Proof.Machine
end

section
/-! Proofs of O20 to O23: what the step of one listed round leaves (R167 to R169, R176). -/

namespace Sys2Proof.Machine

/-- Settles O20: the round goes on. -/
theorem waitingRoundGoesOn : Obligations.WaitingRoundGoesOn := by
  intro s rs hf hr
  have hnext := Transport.nextRound_listed hr
  rw [step_await hf, pollRound_waiting (by rw [hnext]) (by rw [hnext]), hnext]
  rfl

/-- Settles O21: the round is a timeout, whatever its poll holds. -/
theorem timeoutEndsTheCommand : Obligations.TimeoutEndsTheCommand := by
  intro s p rs hf hr
  have hnext := Transport.nextRound_listed hr
  rw [step_await hf, pollRound_timeout (by rw [hnext]), hnext]
  rfl

/-- Settles O22: the response is examined for an exception before anything else. -/
theorem exceptionEndsTheCommand : Obligations.ExceptionEndsTheCommand := by
  intro s r rs hf hr hx
  have hnext := Transport.nextRound_listed hr
  rw [step_await hf, pollRound_response (r := r) (by rw [hnext]) (by rw [hnext]),
    respond_exception _ hx, State.called_called, hnext]
  rfl

/-! ### The decoded value (R112 to R115, R169) -/

/-- A filled window holds the words of the response, in order (R169). -/
theorem fillWindow_getElem {n : Nat} {r : Response} {w : Window} (h : fillWindow n r = some w)
    (j : Fin 16) : w[j] = if j.val < n then r.registers.getD j.val 0#16 else 0#16 := by
  unfold fillWindow at h
  split_ifs at h
  cases h
  exact Vector.getElem_ofFn _

/-- The micro-operation of a read of at least one whole value decodes the words that filled the window. -/
theorem assembled_decodedAs {p : PendingTransaction} {r : Response} {w : Window}
    (hread : p.registersToRead ≠ 0#8)
    (hvalue : p.responseWidth.regsPerValue ≤ p.registersToRead.toNat)
    (hfill : fillWindow p.registersToRead.toNat r = some w) (b : DecodedBuffers) :
    Claims.DecodedAs p.responseWidth p.registersToRead.toNat r.registers (assembled p w b) := by
  have hword : ∀ (j : Nat) (hj : j < 16), j < p.registersToRead.toNat →
      w[j] = r.registers.getD j 0#16 :=
    fun j hj hlt => (fillWindow_getElem hfill ⟨j, hj⟩).trans (if_pos hlt)
  unfold assembled
  rw [if_neg hread]
  cases hw : p.responseWidth <;> rw [hw, WidthTag.regsPerValue] at hvalue
  case w16 =>
    refine ⟨fun j => (fillInt16_getElem _ w j).trans ?_, rfl, rfl, rfl⟩
    rw [fillWindow_getElem hfill j]
    split_ifs <;> rfl
  case u32 =>
    refine ⟨?_, rfl, rfl, rfl⟩
    rw [← hword 0 (by decide) (by omega), ← hword 1 (by decide) (by omega)]
    exact append_toNat w[0] w[1]
  case s32 =>
    refine ⟨?_, rfl, rfl, rfl⟩
    rw [← hword 0 (by decide) (by omega), ← hword 1 (by decide) (by omega)]
    exact append_toInt w[0] w[1]
  case f64 =>
    refine ⟨?_, rfl, rfl, rfl⟩
    rw [← hword 0 (by decide) (by omega), ← hword 1 (by decide) (by omega), ← hword 2 (by decide) (by omega),
      ← hword 3 (by decide) (by omega)]
    exact (congrArg BitVec.toNat (floatPattern_eq w)).trans (append4_toNat w[0] w[1] w[2] w[3])

/-- A legal record of a read asks for at least one whole value (R88). -/
theorem PendingTransaction.Recorded.regsPerValue_le {p : PendingTransaction} (h : p.Recorded)
    (hread : p.registersToRead ≠ 0#8) : p.responseWidth.regsPerValue ≤ p.registersToRead.toNat := by
  rw [PendingTransaction.Recorded, if_neg hread] at h
  obtain ⟨-, hdvd, -⟩ := h
  have hpos : p.registersToRead.toNat ≠ 0 := fun h0 => hread (BitVec.eq_of_toNat_eq h0)
  exact Nat.le_of_dvd (Nat.pos_of_ne_zero hpos) hdvd

/-- Settles O23: the round fills the window and ends with the slots the micro-operation leaves. -/
theorem successEndsTheCommand : Obligations.SuccessEndsTheCommand := by
  intro s r rs hf hr hx hlen hinv
  obtain ⟨hrec, -⟩ := hinv hf
  have hnext := Transport.nextRound_listed hr
  obtain ⟨w, hfill⟩ : ∃ w, fillWindow s.pending.registersToRead.toNat r = some w :=
    ⟨_, fillWindow_some hlen⟩
  refine ⟨assembled s.pending w s.buffers, ?_, fun h0 => assembled_of_write h0 w s.buffers,
    fun hread => assembled_decodedAs hread (hrec.regsPerValue_le hread) hfill s.buffers⟩
  rw [step_await hf, pollRound_filled (by rw [hnext]) hx hfill, hnext]
  rfl

end Sys2Proof.Machine
end

section
/-! Proof of O28: waiting rounds at the front of the script are passed over one step each (R175, R176). -/

namespace Sys2Proof.Machine

theorem State.afterWaiting_zero (s : State) : s.afterWaiting 0 s.transport.rounds = s := by
  simp [State.afterWaiting, waitingCalls]

/-- One waiting round, then `k` more. -/
theorem State.afterWaiting_afterWaiting (s : State) (k : Nat) (rs rest : List Round) :
    (s.afterWaiting 1 rs).afterWaiting k rest = s.afterWaiting (k + 1) rest := by
  simp [State.afterWaiting, waitingCalls]

/-- A listed waiting round is one step of the loop (R176). -/
theorem step_waiting {s : State} {r : Round} {rs : List Round} (hf : s.fsm = .awaitResponse)
    (hr : s.transport.rounds = r :: rs) (hw : r.waiting = true) :
    step s = .next (s.afterWaiting 1 rs) := by
  obtain ⟨ha, hp⟩ := (Round.waiting_iff r).1 hw
  exact waitingRoundGoesOn s rs hf (by rw [hr, ← ha, ← hp])

/-- Waiting rounds at the front of the script are passed over in as many steps. -/
theorem run_listed_waiting {s : State} {ws rest : List Round} (hf : s.fsm = .awaitResponse)
    (hr : s.transport.rounds = ws ++ rest) (hw : ∀ r ∈ ws, r.waiting = true) :
    run ws.length s = .next (s.afterWaiting ws.length rest) := by
  induction ws generalizing s with
  | nil =>
    obtain rfl : s.transport.rounds = rest := hr
    rw [List.length_nil, run_zero, State.afterWaiting_zero]
  | cons r ws ih =>
    obtain ⟨hr0, hws⟩ := List.forall_mem_cons.1 hw
    rw [List.length_cons, run_succ_next _ (step_waiting (rs := ws ++ rest) hf hr hr0),
      ih (s := s.afterWaiting 1 (ws ++ rest)) hf rfl hws, State.afterWaiting_afterWaiting]

/-- Settles O28: the small steps pass over the waiting rounds at the front; then the big step's round is the next small
step, or the script is used up. -/
theorem bigStepAgreesWithSmallSteps : Obligations.BigStepAgreesWithSmallSteps := by
  intro s hf
  have hrun := run_listed_waiting hf List.takeWhile_append_dropWhile.symm
    fun _ => List.mem_takeWhile_imp
  unfold bigStep
  cases hd : s.transport.rounds.dropWhile Round.waiting with
  | nil =>
    rw [hd] at hrun
    have hall : s.transport.rounds.takeWhile Round.waiting = s.transport.rounds := by
      simpa [hd] using List.takeWhile_append_dropWhile (p := Round.waiting) (l := s.transport.rounds)
    rw [hall] at hrun
    exact ⟨by simp, fun _ => ⟨_, hrun, hf, rfl, rfl, rfl⟩⟩
  | cons r rest =>
    rw [hd] at hrun
    refine ⟨fun o ho => ?_, by simp⟩
    rw [run_add_next 1 hrun, run_one]
    exact (step_await (s := s.afterWaiting _ (r :: rest)) hf).trans (Option.some.inj ho)

end Sys2Proof.Machine
end

section
/-! Proofs of O25 to O27: a transaction from presentation to return is its start, the waiting rounds, and the step of the
round that ends it (R164 to R173). -/

namespace Sys2Proof.Machine

/-- The wait of a transaction: its word is taken off the port, its request is under way, `k` waiting rounds have passed
and `rounds` is what the script has left. -/
def State.awaited (s : State) (rest : List CommandWord) (q : Claims.Request) (ss : List Bool)
    (k : Nat) (rounds : List Round) : State :=
  (Claims.requested { s with commands := rest } q ss).afterWaiting k rounds

section
variable (s : State) (rest : List CommandWord) (q : Claims.Request) (ss : List Bool) (k : Nat)
  (rounds : List Round)

@[simp] theorem State.awaited_registersToRead :
    (s.awaited rest q ss k rounds).pending.registersToRead = q.words := rfl

@[simp] theorem State.awaited_buffers : (s.awaited rest q ss k rounds).buffers = s.buffers := rfl

end

@[simp] theorem writeRequest_words (a : BitVec 8) (v : RegWord) : (Claims.writeRequest a v).words = 0#8 :=
  rfl

/-- Starting a request and passing over `k` waiting rounds leaves the last step to take. -/
theorem run_to_last_round {s : State} {i : Instr} {q : Claims.Request} {word : CommandWord}
    {rest : List CommandWord} {ss : List Bool} {k : Nat} {rounds : List Round} (hf : s.fsm = .idle)
    (hc : s.commands = word :: rest) (hd : decode word = .ok i) (hq : Claims.requestOf i = some q)
    (hs : s.transport.starts = true :: ss)
    (hr : s.transport.rounds = List.replicate k ⟨true, none⟩ ++ rounds) :
    run (k + 2) s = step (s.awaited rest q ss k rounds) := by
  have hstart : step s = .next (Claims.requested { s with commands := rest } q ss) :=
    (stepRunsDecodedCommand s word rest i hf hc hd).trans ((startAnswerDecides i q _ ss hq).1 hs)
  have hwait := run_listed_waiting (s := Claims.requested { s with commands := rest } q ss) rfl hr
    fun r h => by rw [List.eq_of_mem_replicate h]; rfl
  rw [List.length_replicate] at hwait
  rw [run_succ_next _ hstart, run_add_next 1 hwait, run_one]
  rfl

/-- The calls of `k` waiting rounds, as R173 counts them. -/
theorem waitingCalls_eq (k : Nat) : waitingCalls k = Claims.pollCalls k := by
  induction k with
  | zero => rfl
  | succ k ih => rw [waitingCalls, ih]; rfl

theorem pollCalls_succ (k : Nat) :
    Claims.pollCalls (k + 1) = Claims.pollCalls k ++ [.awaiting, .poll] := by
  simp [Claims.pollCalls, List.replicate_succ']

/-- The end of a transaction, every element written out. -/
theorem ended_awaited (s : State) (rest : List CommandWord) (q : Claims.Request) (ss : List Bool)
    (k : Nat) (rounds rs : List Round) (code : BitVec 8) (calls : List Call) (b : DecodedBuffers) :
    Claims.ended (s.awaited rest q ss k rounds) code rs calls b =
      { fsm := .idle
        pending := q.record code
        buffers := b
        ret := ⟨true, code, .absent⟩
        transport :=
          { s.transport with
            starts := ss
            rounds := rs
            calls := s.transport.calls ++ [q.call] ++ Claims.pollCalls k ++ calls }
        commands := rest } := by
  simp [Claims.ended, State.awaited, State.afterWaiting, Claims.requested, Claims.Request.record,
    waitingCalls_eq]

/-- A request of a legal record is awaited with the invariant. -/
theorem State.awaited_inv {q : Claims.Request} (hq : ∀ code, (q.record code).Recorded) {s : State}
    {rest : List CommandWord} {ss : List Bool} {k : Nat} {rounds : List Round} :
    (s.awaited rest q ss k rounds).Inv :=
  fun _ => ⟨hq _, rfl⟩

/-- An accepted read asks for a legal number of words (R88). -/
theorem readWordsOk_of_decode {word : CommandWord} {i : Instr} {a c : BitVec 8} {w : WidthTag}
    (hd : decode word = .ok i) (he : i.expand = .read a c w) : readWordsOk c w = true := by
  have hbase := decodeBase_expand hd
  rw [he] at hbase
  rcases decodeBase_ok hbase with ⟨-, h⟩ | ⟨-, h⟩ | ⟨-, -, h⟩ | ⟨-, -, h⟩
  · cases h
  · cases h
  · obtain ⟨tag, -, hok, -, -, -, h⟩ := decodeRead_ok h
    cases h
    exact hok
  · obtain ⟨-, -, -, ⟨-, h⟩ | ⟨-, h⟩⟩ := decodeWrite_ok h <;> cases h

/-- The 8-bit register of the record holds the whole count of a legal read (R24, R88). -/
theorem readRequest_words {c : BitVec 8} {w : WidthTag} (h : readWordsOk c w = true) (a : BitVec 8) :
    (Claims.readRequest a c w).words.toNat = c.toNat * w.regsPerValue := by
  obtain ⟨-, hle⟩ := (readWordsOk_iff c w).1 h
  exact Nat.mod_eq_of_lt (hle.trans_lt (by decide))

theorem readRequest_words_ne_zero {c : BitVec 8} {w : WidthTag} (h : readWordsOk c w = true)
    (a : BitVec 8) : (Claims.readRequest a c w).words ≠ 0#8 := fun h0 => by
  obtain ⟨hpos, -⟩ := (readWordsOk_iff c w).1 h
  have hwords := readRequest_words h a
  rw [h0] at hwords
  exact absurd hwords.symm (Nat.ne_of_gt hpos)

/-- Settles O25: the last round is a success, which decodes the words the read asked for. -/
theorem readRunsToSuccess : Obligations.ReadRunsToSuccess := by
  intro s i a c w word rest ss k r rs hf hc hd he hs hr hx hlen
  have hok := readWordsOk_of_decode hd he
  have hwords := readRequest_words hok a
  obtain ⟨b, hstep, -, hdec⟩ := successEndsTheCommand
    (s.awaited rest (Claims.readRequest a c w) ss k (⟨true, some r⟩ :: rs)) r rs rfl rfl hx
    (hwords.trans_le hlen) (State.awaited_inv (readRequest_recorded a hok))
  refine ⟨b, hwords ▸ hdec (readRequest_words_ne_zero hok a), ?_⟩
  rw [run_to_last_round hf hc hd (requestOf_read he) hs hr, hstep, ended_awaited, pollCalls_succ]
  simp [hwords]

/-- Settles O26: the last round is a success, which decodes nothing. -/
theorem writeRunsToSuccess : Obligations.WriteRunsToSuccess := by
  intro s i a v word rest ss k r rs hf hc hd he hs hr hx
  obtain ⟨b, hstep, hb, -⟩ := successEndsTheCommand
    (s.awaited rest (Claims.writeRequest a v) ss k (⟨true, some r⟩ :: rs)) r rs rfl rfl hx
    (Nat.zero_le _) (State.awaited_inv (writeRequest_recorded a v))
  obtain rfl := hb rfl
  rw [run_to_last_round hf hc hd (requestOf_write he) hs hr, hstep, ended_awaited, pollCalls_succ]
  simp

/-- Settles O27: the last round is a timeout or an exception, which leaves the buffers alone. -/
theorem failedTransactionKeepsBuffers : Obligations.FailedTransactionKeepsBuffers := by
  intro s i q word rest ss k last rs code calls hf hc hd hq hs hr hlast
  rw [run_to_last_round hf hc hd hq hs hr, ← ended_awaited (rounds := last :: rs)]
  obtain ⟨awaiting, poll⟩ := last
  rcases hlast with ⟨rfl, rfl, rfl⟩ | ⟨rfl, r, rfl, hx, rfl, rfl⟩
  · exact timeoutEndsTheCommand _ poll rs rfl rfl
  · exact exceptionEndsTheCommand _ r rs rfl rfl hx

end Sys2Proof.Machine
end

section
/-! Proof of O58: the code of each answer is read off the cases of its command (R140, R141, R201). -/

namespace Sys2Proof.Machine

theorem exec_compress16_code {v : F64} {s t : State} (h : exec (.compress16 v) s = .next t) :
    t.ret.code = errSuccess ∨ t.ret.code = errOverflow16 ∨ t.ret.code = errUnderflow16 := by
  rcases compress16_cases v with ⟨-, he⟩ | ⟨-, ⟨-, he⟩ | ⟨-, ⟨-, he⟩ | ⟨-, ⟨_, -, he⟩ | ⟨-, he⟩⟩⟩⟩
  · cases h.symm.trans (exec_compress16_error he s)
  · cases h.symm.trans (exec_compress16_ok he s)
    exact .inr (.inl rfl)
  · cases h.symm.trans (exec_compress16_ok he s)
    exact .inr (.inr rfl)
  · cases h.symm.trans (exec_compress16_ok he s)
    exact .inl rfl
  · cases h.symm.trans (exec_compress16_error he s)

/-- Stage two brings no code of its own: its failures are those of the bounds (R141). -/
theorem checkSign_code (x : BitVec 32) (v : FVal) :
    (checkSign x v).2 = errSuccess ∨ (checkSign x v).2 = errOverflow32 ∨
      (checkSign x v).2 = errUnderflow32 := by
  unfold checkSign
  split
  · split
    · exact .inr (.inr rfl)
    · exact .inr (.inl rfl)
  · exact .inl rfl

theorem exec_compress32_code {v : F64} {s t : State} (h : exec (.compress32 v) s = .next t) :
    t.ret.code = errSuccess ∨ t.ret.code = errOverflow32 ∨ t.ret.code = errUnderflow32 := by
  rcases compress32_cases v with ⟨-, he⟩ | ⟨-, ⟨-, he⟩ | ⟨-, ⟨-, he⟩ | ⟨-, ⟨x, -, he⟩ | ⟨-, he⟩⟩⟩⟩
  · cases h.symm.trans (exec_compress32_error he s)
  · cases h.symm.trans (exec_compress32_ok he s)
    exact .inr (.inl rfl)
  · cases h.symm.trans (exec_compress32_ok he s)
    exact .inr (.inr rfl)
  · cases h.symm.trans (exec_compress32_checked he s)
    exact checkSign_code x (FVal.ofBits v)
  · cases h.symm.trans (exec_compress32_error he s)

/-- Settles O58: one lemma for each command. -/
theorem compressCodesAreLegal : Obligations.CompressCodesAreLegal :=
  fun _ _ _ => ⟨exec_compress16_code, exec_compress32_code⟩

end Sys2Proof.Machine
end

section
/-! Proofs of O30, O57, O11 and O56: reset is at rest, a wait of waiting rounds only goes on, and code 0 says success
only as far as the Transport keeps 0 out of its exceptions (R230, R244, R245). -/

namespace Sys2Proof.Machine

/-- Settles O30: whatever the number of steps, as many waiting rounds change the Transport port only. -/
theorem waitCanHang : Obligations.WaitCanHang := by
  intro s hf hw n
  obtain ⟨tr, hrun, -⟩ := run_waiting (k := n) hf fun j _ => hw j
  exact ⟨{ s with transport := tr }, hrun, hf, rfl, rfl, rfl, rfl⟩

/-- Settles O57, by how the round went: a timeout returns 5, a waiting round stays in the wait, and an exception of code
0 is what the premise excludes. -/
theorem codeZeroMeansSuccess : Obligations.CodeZeroMeansSuccess := by
  intro s t hf hnz h hidle hcode
  rw [step_await hf] at h
  rcases pollRound_cases s with ⟨-, ht⟩ | ⟨-, -, ht⟩ | ⟨r, -, hp, hx, ht⟩ | ⟨r, w, ha, hp, hx, -, ht⟩ |
    ⟨r, -, -, -, -, ht⟩ <;> rw [ht] at h <;> cases h
  · cases hcode
  · cases hf.symm.trans hidle
  · exact absurd hcode (hnz 0 r hp hx)
  · have hround : s.transport.nextRound.1 = ⟨true, some r⟩ := by rw [← ha, ← hp]
    exact ⟨r, hround, hx⟩

/-- Settles O11: `Idle` with no command at the port, so O9 says the machine stays there. -/
theorem resetLeavesTheEngineIdle : Obligations.ResetLeavesTheEngineIdle :=
  ⟨rfl, rfl, rfl, rfl, idleWithoutCommandStays State.reset rfl rfl⟩

/-- Settles O56: the end O22 gives every exception, at code 0. -/
theorem zeroExceptionLooksLikeSuccess : Obligations.ZeroExceptionLooksLikeSuccess := by
  intro s r rs hf hr hx hcode
  have hstep := exceptionEndsTheCommand s r rs hf hr hx
  rw [hcode] at hstep
  exact ⟨_, hstep, rfl, rfl, rfl, rfl⟩

end Sys2Proof.Machine
end
